-- ==== Sys2Proof/Word.lean ====
section
/-! DEFINITION. The machine's one data width: the 32-bit word (`00_scope.md` R5, R8). A register, a memory cell, an
address and an instruction are all words; no narrower or wider access exists (`20_memory.md` R61, R62, R66). -/

namespace Sys2Proof

/-- A 32-bit value, `w[31]` the most significant bit (R7); `+` and `-` wrap modulo `2^32` (R8). -/
abbrev Word := BitVec 32

end Sys2Proof
end

