-- ==== Sys2Proof/Syntax.lean ====
section
/-! DEFINITION. The instruction set as syntax: the registers (`10_state.md` R20), the condition codes (`30_encoding.md` R100),
the ALU operations (R102), and one constructor of `Instr` for each row of `spec/opcode_table.json`. -/

namespace Sys2Proof

/-- The sixteen public registers (R20): `r0` to `r11`, status, sp, lr and pc. -/
inductive Reg where
  | r (n : Fin 12)
  | status
  | sp
  | lr
  | pc
deriving DecidableEq, Repr

/-- The assembler's `fp` is `r11` (R22). -/
abbrev Reg.fp : Reg := .r 11

/-- The eleven condition codes of R100 and R135, in the order of their numbers. -/
inductive Cond where
  | none | eq | ne | ult | ugt | ule | uge | slt | sgt | sle | sge
deriving DecidableEq, Repr

/-- The thirteen ALU operations of R102, in the order of their numbers. -/
inductive AluOp where
  | pass | and | or | xor | not | add | addc | sub | subb | neg | shl | shr | ashr
deriving DecidableEq, Repr

/-- The ALU modifier bits other than Immediate (R97): Reverse `Rb`, Loadn `Lnb`, Set-status `Sb`. -/
structure AluMods where
  rev : Bool
  loadn : Bool
  set : Bool
deriving DecidableEq, Repr

/-- The second source of an ALU instruction: Register C (format ALU-R, R97) or the 8-bit immediate (format ALU-I, R98). -/
inductive AluSrc where
  | reg (c : Reg)
  | imm (v : BitVec 8)
deriving DecidableEq, Repr

/-- The instructions. Every one carries its condition code (R91). `a`, `b`, `c` are the fields Register A, B and C.
The bits the source marks Unused select nothing (R107) and are no part of the syntax. -/
inductive Instr where
  | nop (cc : Cond)
  | ld (cc : Cond) (a : Reg) (addr : BitVec 16)
  | ldr (cc : Cond) (a b : Reg) (off : BitVec 12)
  | ldi (cc : Cond) (a : Reg) (imm : BitVec 16)
  | st (cc : Cond) (a : Reg) (addr : BitVec 16)
  | str (cc : Cond) (a b : Reg) (off : BitVec 12)
  | push (cc : Cond) (a : Reg)
  | pop (cc : Cond) (a : Reg)
  | int (cc : Cond)
  | passR (cc : Cond) (m : AluMods) (a b c : Reg)
  | passI (cc : Cond) (m : AluMods) (a b : Reg) (imm : BitVec 8)
  | andR (cc : Cond) (m : AluMods) (a b c : Reg)
  | andI (cc : Cond) (m : AluMods) (a b : Reg) (imm : BitVec 8)
  | orR (cc : Cond) (m : AluMods) (a b c : Reg)
  | orI (cc : Cond) (m : AluMods) (a b : Reg) (imm : BitVec 8)
  | xorR (cc : Cond) (m : AluMods) (a b c : Reg)
  | xorI (cc : Cond) (m : AluMods) (a b : Reg) (imm : BitVec 8)
  | notR (cc : Cond) (m : AluMods) (a b c : Reg)
  | notI (cc : Cond) (m : AluMods) (a b : Reg) (imm : BitVec 8)
  | addR (cc : Cond) (m : AluMods) (a b c : Reg)
  | addI (cc : Cond) (m : AluMods) (a b : Reg) (imm : BitVec 8)
  | addcR (cc : Cond) (m : AluMods) (a b c : Reg)
  | addcI (cc : Cond) (m : AluMods) (a b : Reg) (imm : BitVec 8)
  | subR (cc : Cond) (m : AluMods) (a b c : Reg)
  | subI (cc : Cond) (m : AluMods) (a b : Reg) (imm : BitVec 8)
  | subbR (cc : Cond) (m : AluMods) (a b c : Reg)
  | subbI (cc : Cond) (m : AluMods) (a b : Reg) (imm : BitVec 8)
  | negR (cc : Cond) (m : AluMods) (a b c : Reg)
  | negI (cc : Cond) (m : AluMods) (a b : Reg) (imm : BitVec 8)
  | shlR (cc : Cond) (m : AluMods) (a b c : Reg)
  | shlI (cc : Cond) (m : AluMods) (a b : Reg) (imm : BitVec 8)
  | shrR (cc : Cond) (m : AluMods) (a b c : Reg)
  | shrI (cc : Cond) (m : AluMods) (a b : Reg) (imm : BitVec 8)
  | ashrR (cc : Cond) (m : AluMods) (a b c : Reg)
  | ashrI (cc : Cond) (m : AluMods) (a b : Reg) (imm : BitVec 8)
deriving DecidableEq, Repr

/-- The ALU instruction of an operation and a second source: the constructor R101 and R102 select. -/
def Instr.alu (op : AluOp) (cc : Cond) (m : AluMods) (a b : Reg) (src : AluSrc) : Instr :=
  match op, src with
  | .pass, .reg c => .passR cc m a b c
  | .pass, .imm v => .passI cc m a b v
  | .and, .reg c => .andR cc m a b c
  | .and, .imm v => .andI cc m a b v
  | .or, .reg c => .orR cc m a b c
  | .or, .imm v => .orI cc m a b v
  | .xor, .reg c => .xorR cc m a b c
  | .xor, .imm v => .xorI cc m a b v
  | .not, .reg c => .notR cc m a b c
  | .not, .imm v => .notI cc m a b v
  | .add, .reg c => .addR cc m a b c
  | .add, .imm v => .addI cc m a b v
  | .addc, .reg c => .addcR cc m a b c
  | .addc, .imm v => .addcI cc m a b v
  | .sub, .reg c => .subR cc m a b c
  | .sub, .imm v => .subI cc m a b v
  | .subb, .reg c => .subbR cc m a b c
  | .subb, .imm v => .subbI cc m a b v
  | .neg, .reg c => .negR cc m a b c
  | .neg, .imm v => .negI cc m a b v
  | .shl, .reg c => .shlR cc m a b c
  | .shl, .imm v => .shlI cc m a b v
  | .shr, .reg c => .shrR cc m a b c
  | .shr, .imm v => .shrI cc m a b v
  | .ashr, .reg c => .ashrR cc m a b c
  | .ashr, .imm v => .ashrI cc m a b v

/-- The ten instructions of the CPU without their condition (R101): the ALU instruction is one of them (R190). -/
inductive CoreOp where
  | nop
  | ld (a : Reg) (addr : BitVec 16)
  | ldr (a b : Reg) (off : BitVec 12)
  | ldi (a : Reg) (imm : BitVec 16)
  | st (a : Reg) (addr : BitVec 16)
  | str (a b : Reg) (off : BitVec 12)
  | push (a : Reg)
  | pop (a : Reg)
  | int
  | alu (op : AluOp) (m : AluMods) (a b : Reg) (src : AluSrc)
deriving DecidableEq, Repr

/-- An instruction's condition (R91) and which of the ten instructions it is. -/
def Instr.split : Instr → Cond × CoreOp
  | .nop cc => (cc, .nop)
  | .ld cc a addr => (cc, .ld a addr)
  | .ldr cc a b off => (cc, .ldr a b off)
  | .ldi cc a imm => (cc, .ldi a imm)
  | .st cc a addr => (cc, .st a addr)
  | .str cc a b off => (cc, .str a b off)
  | .push cc a => (cc, .push a)
  | .pop cc a => (cc, .pop a)
  | .int cc => (cc, .int)
  | .passR cc m a b c => (cc, .alu .pass m a b (.reg c))
  | .passI cc m a b v => (cc, .alu .pass m a b (.imm v))
  | .andR cc m a b c => (cc, .alu .and m a b (.reg c))
  | .andI cc m a b v => (cc, .alu .and m a b (.imm v))
  | .orR cc m a b c => (cc, .alu .or m a b (.reg c))
  | .orI cc m a b v => (cc, .alu .or m a b (.imm v))
  | .xorR cc m a b c => (cc, .alu .xor m a b (.reg c))
  | .xorI cc m a b v => (cc, .alu .xor m a b (.imm v))
  | .notR cc m a b c => (cc, .alu .not m a b (.reg c))
  | .notI cc m a b v => (cc, .alu .not m a b (.imm v))
  | .addR cc m a b c => (cc, .alu .add m a b (.reg c))
  | .addI cc m a b v => (cc, .alu .add m a b (.imm v))
  | .addcR cc m a b c => (cc, .alu .addc m a b (.reg c))
  | .addcI cc m a b v => (cc, .alu .addc m a b (.imm v))
  | .subR cc m a b c => (cc, .alu .sub m a b (.reg c))
  | .subI cc m a b v => (cc, .alu .sub m a b (.imm v))
  | .subbR cc m a b c => (cc, .alu .subb m a b (.reg c))
  | .subbI cc m a b v => (cc, .alu .subb m a b (.imm v))
  | .negR cc m a b c => (cc, .alu .neg m a b (.reg c))
  | .negI cc m a b v => (cc, .alu .neg m a b (.imm v))
  | .shlR cc m a b c => (cc, .alu .shl m a b (.reg c))
  | .shlI cc m a b v => (cc, .alu .shl m a b (.imm v))
  | .shrR cc m a b c => (cc, .alu .shr m a b (.reg c))
  | .shrI cc m a b v => (cc, .alu .shr m a b (.imm v))
  | .ashrR cc m a b c => (cc, .alu .ashr m a b (.reg c))
  | .ashrI cc m a b v => (cc, .alu .ashr m a b (.imm v))

/-- The condition field `cc` (R91). -/
def Instr.cond (i : Instr) : Cond := i.split.1

/-- Which of the ten instructions it is. -/
def Instr.core (i : Instr) : CoreOp := i.split.2

/-- The destination register an executed instruction explicitly writes, if it has one (R31, D34): Register A of LD, LDR,
LDI and POP, and of ALU with `Lnb = 0` (R192). -/
def CoreOp.dest : CoreOp → Option Reg
  | .ld a _ | .ldr a _ _ | .ldi a _ | .pop a => some a
  | .alu _ m a _ _ => if m.loadn then Option.none else some a
  | .nop | .st _ _ | .str _ _ _ | .push _ | .int => Option.none

/-- `Sb = 1` (R193): the instruction sets the flags N, Z, C, V by its result. -/
def CoreOp.setsFlags : CoreOp → Bool
  | .alu _ m _ _ _ => m.set
  | _ => false

end Sys2Proof
end

