-- ==== Sys2Proof/WellFormed.lean ====
section
/-! DEFINITION. Which instructions have a meaning of their own. The types of `Syntax` admit exactly the field values the
spec defines (R99, R100, R102); what is left to check is the three combinations the spec leaves without meaning. -/

namespace Sys2Proof

/-- The checks: PUSH and POP of sp itself (R172), and an ALU instruction whose result and whose flags both go to
status (R196). Each combination decodes; its meaning answers with a refusal when it executes. -/
def CoreOp.wellFormed : CoreOp → Bool
  | .push a => a != .sp
  | .pop a => a != .sp
  | .alu _ m a _ _ => m.loadn || !m.set || a != .status
  | _ => true

/-- An instruction is well-formed when its operation is: the condition plays no part. -/
def Instr.wellFormed (i : Instr) : Bool := i.core.wellFormed

end Sys2Proof
end

