-- ==== Sys2Proof/Decode.lean ====
section
/-! DEFINITION. From an instruction word to an instruction and back (`30_encoding.md`). An instruction is one 32-bit
word, held in one memory cell (R90); the decoder is total on words and names the rule by which it rejects one. -/

namespace Sys2Proof

/-- Why a word is no instruction. The spec gives such a word no meaning: it is neither a NOP nor a trap. -/
inductive Reject where
  /-- `w[31:28]` is 11 to 15 (R110). -/
  | reservedCondition
  /-- `w[27:20]` is `0x09` to `0xEF` (R108). -/
  | undefinedInstruction
  /-- `w[27:24]` is `0xF` and `w[23:20]` is 13 to 15 (R109). -/
  | undefinedAluOperation
deriving DecidableEq, Repr

/-- The decoder's answer. -/
inductive Decoded where
  | instr (i : Instr)
  | rejected (r : Reject)
deriving DecidableEq, Repr

/-- The field `w[lo+n-1:lo]` (R7). -/
def field (lo n : Nat) (w : Word) : BitVec n := w.extractLsb' lo n

/-- A word that holds `v` in the field that starts at bit `lo`, and zeros elsewhere. -/
def place {n : Nat} (lo : Nat) (v : BitVec n) : Word := v.setWidth 32 <<< lo

/-- One bit as a field. -/
def bit (b : Bool) : BitVec 1 := BitVec.ofBool b

/-- Register codes (R20, R99): all sixteen are defined. -/
def Reg.ofCode (c : BitVec 4) : Reg :=
  if h : c.toNat < 12 then .r ⟨c.toNat, h⟩
  else if c = 12#4 then .status
  else if c = 13#4 then .sp
  else if c = 14#4 then .lr
  else .pc

/-- The code of a register (R20). -/
def Reg.code : Reg → BitVec 4
  | .r n => BitVec.ofNat 4 n.val
  | .status => 12#4
  | .sp => 13#4
  | .lr => 14#4
  | .pc => 15#4

/-- The code of a condition (R100). -/
def Cond.code : Cond → BitVec 4
  | .none => 0#4
  | .eq => 1#4
  | .ne => 2#4
  | .ult => 3#4
  | .ugt => 4#4
  | .ule => 5#4
  | .uge => 6#4
  | .slt => 7#4
  | .sgt => 8#4
  | .sle => 9#4
  | .sge => 10#4

/-- Condition codes (R100); 11 to 15 are not defined (R110). -/
def Cond.ofCode (c : BitVec 4) : Option Cond :=
  match c.toNat with
  | 0 => some .none
  | 1 => some .eq
  | 2 => some .ne
  | 3 => some .ult
  | 4 => some .ugt
  | 5 => some .ule
  | 6 => some .uge
  | 7 => some .slt
  | 8 => some .sgt
  | 9 => some .sle
  | 10 => some .sge
  | _ => Option.none

/-- The code of an ALU operation (R102). -/
def AluOp.code : AluOp → BitVec 4
  | .pass => 0#4
  | .and => 1#4
  | .or => 2#4
  | .xor => 3#4
  | .not => 4#4
  | .add => 5#4
  | .addc => 6#4
  | .sub => 7#4
  | .subb => 8#4
  | .neg => 9#4
  | .shl => 10#4
  | .shr => 11#4
  | .ashr => 12#4

/-- ALU operation codes (R102); 13 to 15 are not defined (R109). -/
def AluOp.ofCode (c : BitVec 4) : Option AluOp :=
  match c.toNat with
  | 0 => some .pass
  | 1 => some .and
  | 2 => some .or
  | 3 => some .xor
  | 4 => some .not
  | 5 => some .add
  | 6 => some .addc
  | 7 => some .sub
  | 8 => some .subb
  | 9 => some .neg
  | 10 => some .shl
  | 11 => some .shr
  | 12 => some .ashr
  | _ => none

/-- The modifier bits of an ALU word: `Rb = w[18]`, `Lnb = w[17]`, `Sb = w[16]` (R97, R98). -/
def aluModsOf (w : Word) : AluMods := ⟨w.getLsbD 18, w.getLsbD 17, w.getLsbD 16⟩

/-- The second source of an ALU word: `imm8 = w[7:0]` when `Ib = w[19]` is 1, `fC = w[7:4]` when it is 0 (R97, R98, C1). -/
def aluSrcOf (w : Word) : AluSrc :=
  if w.getLsbD 19 then .imm (field 0 8 w) else .reg (Reg.ofCode (field 4 4 w))

/-- The ALU instruction of a word whose `w[27:24]` is 15 (R97, R98, R102). -/
def decodeAlu (cc : Cond) (w : Word) : Decoded :=
  match AluOp.ofCode (field 20 4 w) with
  | none => .rejected .undefinedAluOperation
  | some op =>
    .instr (.alu op cc (aluModsOf w) (Reg.ofCode (field 12 4 w)) (Reg.ofCode (field 8 4 w)) (aluSrcOf w))

/-- The instruction of a word whose condition is `cc` (R101, formats R92 to R98). Unused bits are ignored (R107). -/
def decodeOp (cc : Cond) (w : Word) : Decoded :=
  if field 24 4 w = 0xF#4 then decodeAlu cc w
  else if field 20 8 w = 0x00#8 then .instr (.nop cc)
  else if field 20 8 w = 0x01#8 then .instr (.ld cc (Reg.ofCode (field 16 4 w)) (field 0 16 w))
  else if field 20 8 w = 0x02#8 then
    .instr (.ldr cc (Reg.ofCode (field 16 4 w)) (Reg.ofCode (field 12 4 w)) (field 0 12 w))
  else if field 20 8 w = 0x03#8 then .instr (.ldi cc (Reg.ofCode (field 16 4 w)) (field 0 16 w))
  else if field 20 8 w = 0x04#8 then .instr (.st cc (Reg.ofCode (field 16 4 w)) (field 0 16 w))
  else if field 20 8 w = 0x05#8 then
    .instr (.str cc (Reg.ofCode (field 16 4 w)) (Reg.ofCode (field 12 4 w)) (field 0 12 w))
  else if field 20 8 w = 0x06#8 then .instr (.push cc (Reg.ofCode (field 16 4 w)))
  else if field 20 8 w = 0x07#8 then .instr (.pop cc (Reg.ofCode (field 16 4 w)))
  else if field 20 8 w = 0x08#8 then .instr (.int cc)
  else .rejected .undefinedInstruction

/-- The decode procedure, total on all words (R113). -/
def decode (w : Word) : Decoded :=
  match Cond.ofCode (field 28 4 w) with
  | none => .rejected .reservedCondition
  | some cc => decodeOp cc w

/-- The low byte of an ALU word and its `Ib` (R97, R98); the Unused bits of ALU-R are written 0 (R107). -/
def AluSrc.encode : AluSrc → Word
  | .reg c => place 4 c.code
  | .imm v => place 19 1#1 ||| place 0 v

/-- The fields below the condition (R92 to R98, R101, R102), Unused bits 0. -/
def CoreOp.encode : CoreOp → Word
  | .nop => place 20 0x00#8
  | .ld a addr => place 20 0x01#8 ||| place 16 a.code ||| place 0 addr
  | .ldr a b off => place 20 0x02#8 ||| place 16 a.code ||| place 12 b.code ||| place 0 off
  | .ldi a imm => place 20 0x03#8 ||| place 16 a.code ||| place 0 imm
  | .st a addr => place 20 0x04#8 ||| place 16 a.code ||| place 0 addr
  | .str a b off => place 20 0x05#8 ||| place 16 a.code ||| place 12 b.code ||| place 0 off
  | .push a => place 20 0x06#8 ||| place 16 a.code
  | .pop a => place 20 0x07#8 ||| place 16 a.code
  | .int => place 20 0x08#8
  | .alu op m a b src =>
    place 24 0xF#4 ||| place 20 op.code ||| place 18 (bit m.rev) ||| place 17 (bit m.loadn) ||| place 16 (bit m.set)
      ||| place 12 a.code ||| place 8 b.code ||| src.encode

/-- The word of an instruction (R91). -/
def encode (i : Instr) : Word := place 28 i.cond.code ||| i.core.encode

/-- The host's question: the instruction read from an instruction whose bits are `w`, numbered as the opcode table
numbers them; the bits from `nbits` on are 0. -/
def decodeTableWord (nbits w : Nat) : Option Instr :=
  match decode (BitVec.ofNat 32 (w % 2 ^ nbits)) with
  | .instr i => some i
  | .rejected _ => none

end Sys2Proof
end

