-- ==== Sys2Proof/Config.lean ====
section
/-! DEFINITION. What the spec leaves to the implementation (`00_scope.md` R6): the readings the spec names for each open
parameter, the record that holds one choice of each, and the free values. The values this model runs with are in
`Machine/Params.lean`. Three parameters of R6 stand elsewhere: `MEM_MAP` and `RESET_MEM` are `Machine.Memory.map` and
`Machine.Memory.cells`, `HWINT` is `Machine.State.inputs`. -/

namespace Sys2Proof.Config

/-- How a narrower field becomes a word: the two readings of R103, R104 and R105. -/
inductive Ext where
  | zero
  | sign
deriving DecidableEq, Repr

/-- `STR_ROLES` (R155): which register field of STR holds the datum and which the base. -/
inductive StrRoles where
  | dataABaseB
  | dataBBaseA
deriving DecidableEq, Repr

/-- `SHIFT_BIG` (R210 to R212): a shift by 32 or more is the mathematical shift, or only the low 5 bits of the amount count. -/
inductive ShiftBig where
  | mathematical
  | lowFiveBits
deriving DecidableEq, Repr

/-- `STATUS_ORDER` (R24): which end of the source's column order N Z C V I M is the most significant bit. -/
inductive StatusOrder where
  | nMostSignificant
  | mMostSignificant
deriving DecidableEq, Repr

/-- One choice of every parameter of R6 that is fixed for a machine. `σ` is the machine's state, which `PRIV` may look at
and which is declared after this file. `cellBits` and `addrBits` are `CELL_BITS` and `ADDR_BITS`: memory keeps the low
`cellBits` bits of a stored word and looks at the low `addrBits` bits of an address (log entries 1 and 2). `priv` is
`PRIV(instr, state)` (R234): which executed operations, in which states, raise the exception (log entry 14). -/
structure Params (σ : Type) where
  cellBits : Nat
  addrBits : Nat
  addr16Ext : Ext
  imm16Ext : Ext
  imm8Ext : Ext
  off12Ext : Ext
  strRoles : StrRoles
  statusOrder : StatusOrder
  shiftBig : ShiftBig
  priv : CoreOp → σ → Bool

/-- FREE VALUE `ALU_CV` (R195, log entry 15): the flags C and V that a non-additive ALU operation with `Sb = 1` leaves,
in that order, as an uninterpreted function of the operation, `opB`, `opC` and the old C and V. It has no body.
DESIGN CHOICE (log entry 36, safe): PASS, NOT and NEG are given `opB` like the other operations, as the arguments R195
names, although R107 and R191 ignore the field it comes from; so their C and V may vary with that field. -/
opaque aluCV : AluOp → Word → Word → Bool → Bool → Bool × Bool

end Sys2Proof.Config
end

