-- ==== Sys2Proof/Machine/State.lean ====
section
/-! DEFINITION. The machine's state (`10_state.md`), all of it plain data: the sixteen public registers (R20), memory
(R34) and the inputs still to come (R35, R278). R36: there is nothing else. -/

namespace Sys2Proof.Machine

/-- The status register (R23, R24): six one-bit flags and nothing else. All 64 values are legal (R39). `n z c v` are the
condition flags (R25), `i` enables hardware interrupts (R26), `m` is 1 in user mode and 0 in supervisor mode (R27). -/
structure Status where
  n : Bool
  z : Bool
  c : Bool
  v : Bool
  i : Bool
  m : Bool
deriving DecidableEq, Repr

/-- A range of addresses backed by plain memory: `base` up to but not including `base + size`. -/
structure Region where
  base : Nat
  size : Nat
deriving DecidableEq, Repr

/-- Memory (R34, R60, R61): `map` is `MEM_MAP`, the addresses the platform backs, which no step changes; `cells` lists the
cells that hold a value as (address, 32-bit word), addresses strictly rising. An unlisted cell holds no value (R64, R272). -/
structure Memory where
  map : List Region
  cells : List (Nat × Word)
deriving DecidableEq, Repr

/-- What the outside world does at one step boundary (R278): it may reset the CPU (R270), and it drives the level of the
hwint line (R35). -/
structure Boundary where
  reset : Bool
  hwint : Bool
deriving DecidableEq, Repr

/-- A boundary at which nothing happens: no reset, the line low. -/
abbrev Boundary.quiet : Boundary := ⟨false, false⟩

/-- The state. `inputs` is `HWINT(t)` together with the reset event: the boundaries to come, the next one first; when
the list is exhausted the boundaries are quiet (log entry 7). -/
structure State where
  gpr : Vector Word 12
  status : Status
  sp : Word
  lr : Word
  pc : Word
  mem : Memory
  inputs : List Boundary
deriving DecidableEq, Repr

/-- Why the machine has no next state. The hardware has no access fault (R254): these are stops of the model. -/
inductive Fault where
  /-- Raised by a fetch, a load or a store (trap entry's included) at an address `MEM_MAP` does not back: the spec gives
  the access no step (R64, R65, D27). Safe: nothing is proved of what such an access does. -/
  | noMemory (addr : Word)
  /-- Raised by a fetch or a load of a backed cell that holds no value (R64, R272, D26). Safe: no value is assumed. -/
  | noValue (addr : Word)
deriving DecidableEq, Repr

/-- Why a situation has no meaning: the spec says `refuse` (R9). Each is safe: nothing is proved of what the hardware does. -/
inductive Refusal where
  /-- Raised by an arm of `exec` for an instruction without a meaning; no arm raises it. -/
  | notModelled (mnemonic : String)
  /-- Raised by `step` for a word whose condition code is 11 to 15 (R110, D12). -/
  | reservedCondition (w : Word)
  /-- Raised by `step` for a word whose instruction code is `0x09` to `0xEF` (R108, D13). -/
  | undefinedInstruction (w : Word)
  /-- Raised by `step` for a word whose ALU operation is 13 to 15 (R109, D13). -/
  | undefinedAluOperation (w : Word)
  /-- Raised by an executed PUSH of sp itself (R172, D22). -/
  | pushOfSp
  /-- Raised by an executed POP of sp itself (R172, D22). -/
  | popOfSp
  /-- Raised by an executed ALU instruction whose result and whose flags both go to status, in supervisor mode (R196, D20). -/
  | resultAndFlagsToStatus
deriving DecidableEq, Repr

/-- What a meaning answers. -/
abbrev Result := Host.Outcome State Fault Refusal

/-- The machine after power-on (R37, R271, R272): every register 0, so supervisor mode, hardware interrupts off and the
pc at the Start vector; no memory cell holds a value. `MEM_MAP` backs the whole address space (log entry 3) and the
coming boundaries are quiet (log entry 7). -/
def State.reset : State where
  gpr := Vector.replicate 12 0#32
  status := ⟨false, false, false, false, false, false⟩
  sp := 0#32
  lr := 0#32
  pc := 0#32
  mem := ⟨[⟨0, 4294967296⟩], []⟩
  inputs := []

end Sys2Proof.Machine
end

