-- ==== Sys2Proof/Machine/Params.lean ====
section
/-! DEFINITION. The values of the open parameters this model runs with: the spec defaults of `00_scope.md` R6. -/

namespace Sys2Proof.Machine

/-- `PRIV`, spec default (R234, D15, log entry 14): an operation that writes register code 12 as its destination is
privileged, and user mode may not run it. -/
def privDefault (op : CoreOp) (s : State) : Bool := op.dest == some .status && s.status.m

/-- The spec defaults (R6): a cell and an address have 32 bits (D3, D4; log entries 1, 2), every field zero-extends (D5 to
D8; 8 to 11), STR takes its datum from Register A and its base from Register B (D9; 12), N is the most significant status
bit (D2; 13), a big shift is the mathematical one (D21; 17). -/
def params : Config.Params State where
  cellBits := 32
  addrBits := 32
  addr16Ext := .zero
  imm16Ext := .zero
  imm8Ext := .zero
  off12Ext := .zero
  strRoles := .dataABaseB
  statusOrder := .nMostSignificant
  shiftBig := .mathematical
  priv := privDefault

end Sys2Proof.Machine
end

