-- ==== Sys2Proof/Machine/Ops.lean ====
section
/-! DEFINITION. The named operations over memory and registers: one cell read or written (R64, R65), one register read or
written (R30, R31), status moved as a number (R38), a push (R170), trap entry (R236) and what raises it. -/

namespace Sys2Proof.Machine

/-! ### Memory -/

/-- The cell an address selects: the one its low `ADDR_BITS` bits number (R62). -/
def cellIndex (addr : Word) : Nat := addr.toNat % 2 ^ params.addrBits

/-- What a cell keeps of a word: its low `CELL_BITS` bits (R61). -/
def cellValue (v : Word) : Word := BitVec.ofNat 32 (v.toNat % 2 ^ params.cellBits)

/-- `MEM_MAP` has memory at the address (R62, R64). -/
def Memory.backs (m : Memory) (addr : Nat) : Bool :=
  m.map.any fun r => decide (r.base ≤ addr) && decide (addr < r.base + r.size)

/-- The value of a cell in a list of cells, if it holds one. -/
def findCell (addr : Nat) : List (Nat × Word) → Option Word
  | [] => none
  | (b, w) :: rest => if addr = b then some w else findCell addr rest

/-- A list of cells with one cell's value replaced or added, in address order. -/
def putCell (addr : Nat) (v : Word) : List (Nat × Word) → List (Nat × Word)
  | [] => [(addr, v)]
  | (b, w) :: rest =>
    if addr < b then (addr, v) :: (b, w) :: rest
    else if addr = b then (addr, v) :: rest
    else (b, w) :: putCell addr v rest

/-- The addresses of a list of cells rise strictly, from `lo` on. -/
def risingFrom (lo : Nat) : List (Nat × Word) → Bool
  | [] => true
  | (a, _) :: rest => decide (lo ≤ a) && risingFrom (a + 1) rest

/-- The canonical form of memory: addresses strictly rising, each of `ADDR_BITS` bits, backed by `MEM_MAP`, and holding a
value of `CELL_BITS` bits. -/
def Memory.wf (m : Memory) : Bool :=
  risingFrom 0 m.cells && m.cells.all fun p =>
    decide (p.1 < 2 ^ params.addrBits) && decide (p.2.toNat < 2 ^ params.cellBits) && m.backs p.1

/-- `MemRead(addr)` (R64). -/
def Memory.read (m : Memory) (addr : Word) : Except Fault Word :=
  if m.backs (cellIndex addr) then
    match findCell (cellIndex addr) m.cells with
    | some v => .ok v
    | none => .error (.noValue addr)
  else .error (.noMemory addr)

/-- `MemWrite(addr, v)` (R65). -/
def Memory.write (m : Memory) (addr v : Word) : Except Fault Memory :=
  if m.backs (cellIndex addr) then .ok { m with cells := putCell (cellIndex addr) (cellValue v) m.cells }
  else .error (.noMemory addr)

/-- Read a cell and go on with its value; a read without a result stops the machine (R64). -/
def load (addr : Word) (s : State) (k : Word → Result) : Result :=
  match s.mem.read addr with
  | .ok v => k v
  | .error f => .fault f

/-- Write a cell and go on; a write without a step stops the machine (R65). -/
def store (addr v : Word) (s : State) (k : State → Result) : Result :=
  match s.mem.write addr v with
  | .ok m => k { s with mem := m }
  | .error f => .fault f

/-! ### Registers -/

/-- One bit of a number. -/
def flagBit (b : Bool) (weight : Nat) : Word := if b then BitVec.ofNat 32 (2 ^ weight) else 0#32

/-- Status as a number, zero-extended (R24, R38). -/
def Status.toWord (f : Status) : Word :=
  match params.statusOrder with
  | .nMostSignificant =>
    flagBit f.n 5 ||| flagBit f.z 4 ||| flagBit f.c 3 ||| flagBit f.v 2 ||| flagBit f.i 1 ||| flagBit f.m 0
  | .mMostSignificant =>
    flagBit f.n 0 ||| flagBit f.z 1 ||| flagBit f.c 2 ||| flagBit f.v 3 ||| flagBit f.i 4 ||| flagBit f.m 5

/-- The flags a number loads: its low 6 bits; the others are discarded (R38). -/
def Status.ofWord (v : Word) : Status :=
  match params.statusOrder with
  | .nMostSignificant =>
    ⟨v.getLsbD 5, v.getLsbD 4, v.getLsbD 3, v.getLsbD 2, v.getLsbD 1, v.getLsbD 0⟩
  | .mMostSignificant =>
    ⟨v.getLsbD 0, v.getLsbD 1, v.getLsbD 2, v.getLsbD 3, v.getLsbD 4, v.getLsbD 5⟩

/-- `ReadReg` (R30). While an instruction fetched from `a` executes, pc reads `a + 1` (R33). -/
def State.readReg (s : State) : Reg → Word
  | .r n => s.gpr[n]
  | .status => s.status.toWord
  | .sp => s.sp
  | .lr => s.lr
  | .pc => s.pc

/-- `WriteReg` where it is allowed (R31): a write of pc first copies the old pc to lr. The privilege check comes before the
instruction has any effect (`guardPriv`). -/
def State.writeReg (s : State) (a : Reg) (v : Word) : State :=
  match a with
  | .r n => { s with gpr := s.gpr.set n v }
  | .status => { s with status := Status.ofWord v }
  | .sp => { s with sp := v }
  | .lr => { s with lr := v }
  | .pc => { s with lr := s.pc, pc := v }

/-! ### Stack, traps and privilege -/

/-- Decrement sp and store through the new sp (R170, R236): the stack grows down, one cell at a time (R28). -/
def push (v : Word) (s : State) (k : State → Result) : Result :=
  store (s.sp - 1#32) v { s with sp := s.sp - 1#32 } k

/-- `TrapEnter(vec, clearI)` (R236): push pc, push lr, clear `status.I` if asked, enter supervisor mode (R237), go to the
vector. lr does not change (R238), nor do N, Z, C, V (R235). There is no return from a trap beside it: the hardware
restores nothing (R242); a handler returns by POP lr and POP pc. -/
def trapEnter (vec : Word) (clearI : Bool) (s : State) : Result :=
  push s.pc s fun s1 =>
  push s1.lr s1 fun s2 =>
  .next { s2 with
    status := { s2.status with i := s2.status.i && !clearI, m := false }
    pc := vec }

/-- The vector table (R230): the addresses of the first instructions of the handlers. -/
def vecHwint : Word := 1#32

/-- The software interrupt's vector (R230). -/
def vecSwint : Word := 2#32

/-- The exception's vector (R230). -/
def vecException : Word := 3#32

/-- Hardware-interrupt entry (R232): the pc pushed is the address of the instruction that was about to be fetched. -/
def enterHwint (s : State) : Result := trapEnter vecHwint true s

/-- Software-interrupt entry (R233): `status.I` stays. -/
def enterSwint (s : State) : Result := trapEnter vecSwint false s

/-- `raise Exception` (R240): the instruction has had no effect but the pc's advance; `status.I` stays. -/
def raiseException (s : State) : Result := trapEnter vecException false s

/-- The privilege check of every executed operation, before any of its effects (R137, R234, R240): one that the parameter
`PRIV` names in this state raises the exception. -/
def guardPriv (op : CoreOp) (s : State) (k : Result) : Result :=
  if params.priv op s then raiseException s else k

/-- The Start event (R270, R271, T8): all registers 0, nothing pushed, memory as it was. -/
def State.start (s : State) : State :=
  { State.reset with mem := s.mem, inputs := s.inputs }

/-! ### The parts of a step around the instruction -/

/-- The coming step boundary (R131): the head of `inputs`, quiet when there is none. -/
def State.boundary (s : State) : Boundary := s.inputs.headD .quiet

/-- The state once the coming boundary has passed. -/
def State.passBoundary (s : State) : State := { s with inputs := s.inputs.tail }

/-- Fetch (R132) and advance (R133): read the word at pc, then `pc <- pc + 1`, which is no explicit write of pc. -/
def fetch (s : State) (k : Word → State → Result) : Result :=
  load s.pc s fun w => k w { s with pc := s.pc + 1#32 }

end Sys2Proof.Machine
end

