-- ==== Sys2Proof/Machine/Operands.lean ====
section
/-! DEFINITION. Operand forms: the extension of each immediate field (R103, R104, R105), the addresses of loads and stores
(R151 to R155), the roles of STR's registers (R155) and the operand selection of the ALU instruction (R191). -/

namespace Sys2Proof.Machine

/-- The extension of a narrower field to a word. -/
def extend {n : Nat} (e : Config.Ext) (v : BitVec n) : Word :=
  match e with
  | .zero => v.setWidth 32
  | .sign => v.signExtend 32

/-- The address of LD and ST (R151, R154). -/
def absoluteAddr (addr : BitVec 16) : Word := extend params.addr16Ext addr

/-- The immediate of LDI (R153). -/
def ldiImm (imm : BitVec 16) : Word := extend params.imm16Ext imm

/-- A base register's value plus the offset, in cells, modulo `2^32` (R104). -/
def offsetAddr (s : State) (base : Reg) (off : BitVec 12) : Word :=
  s.readReg base + extend params.off12Ext off

/-- The register whose content STR stores (R155). -/
def strData (a b : Reg) : Reg :=
  match params.strRoles with
  | .dataABaseB => a
  | .dataBBaseA => b

/-- The register that is STR's base (R155). -/
def strBase (a b : Reg) : Reg :=
  match params.strRoles with
  | .dataABaseB => b
  | .dataBBaseA => a

/-- `second` of R191: Register C, or the extended 8-bit immediate. -/
def aluSecond (s : State) : AluSrc → Word
  | .reg c => s.readReg c
  | .imm v => extend params.imm8Ext v

/-- `opB` of R191: `x[fB]`, or `second` when Reverse is set. -/
def operandB (m : AluMods) (b : Reg) (src : AluSrc) (s : State) : Word :=
  if m.rev then aluSecond s src else s.readReg b

/-- `opC` of R191: `second`, or `x[fB]` when Reverse is set. -/
def operandC (m : AluMods) (b : Reg) (src : AluSrc) (s : State) : Word :=
  if m.rev then s.readReg b else aluSecond s src

end Sys2Proof.Machine
end

