-- ==== Sys2Proof/Machine/Flags.lean ====
section
/-! DEFINITION. The conditions (R135), the results of the thirteen ALU operations (R200 to R212) and the flags they set
(R193, R194, R195). Additive results are computed exactly, over the unbounded integers, and narrowed at the end. -/

namespace Sys2Proof.Machine

/-- The condition table (R135). -/
def condHolds (cc : Cond) (f : Status) : Bool :=
  match cc with
  | .none => true
  | .eq => f.z
  | .ne => !f.z
  | .ult => !f.c
  | .ugt => f.c && !f.z
  | .ule => !f.c || f.z
  | .uge => f.c
  | .slt => f.n != f.v
  | .sgt => !f.z && f.n == f.v
  | .sle => f.z || f.n != f.v
  | .sge => f.n == f.v

/-- An instruction whose condition is false is not executed (R136): the pc's advance is its whole effect. -/
def whenHolds (cc : Cond) (s : State) (k : Result) : Result :=
  if condHolds cc s.status then k else .next s

/-- What comes before an instruction's own effect `k`: its condition (R134), then the privilege check (R137). -/
def executeOp (cc : Cond) (op : CoreOp) (s : State) (k : Result) : Result := whenHolds cc s (guardPriv op s k)

/-- The unbounded sum `t` of the additive operations (R194): `opB + opC + carry`, with `opC` complemented to subtract. -/
def exactSum (b c : Word) (cin : Bool) : Nat := b.toNat + c.toNat + cin.toNat

/-- The shift amount that counts: all of it, or its low five bits (`SHIFT_BIG`, R210). -/
def shiftAmount (c : Word) : Nat :=
  match params.shiftBig with
  | .mathematical => c.toNat
  | .lowFiveBits => c.toNat % 32

/-- SHL (R210): `opB * 2^amount` modulo `2^32`; 0 from 32 on. -/
def shiftLeft (b : Word) (amount : Nat) : Word :=
  if amount ≤ 31 then BitVec.ofNat 32 (b.toNat * 2 ^ amount) else 0#32

/-- SHR (R211): `floor(opB / 2^amount)`, unsigned; 0 from 32 on. -/
def shiftRight (b : Word) (amount : Nat) : Word :=
  if amount ≤ 31 then BitVec.ofNat 32 (b.toNat / 2 ^ amount) else 0#32

/-- ASHR (R212): `floor(signed(opB) / 2^amount)`; copies of the sign from 32 on. -/
def shiftRightArith (b : Word) (amount : Nat) : Word :=
  if amount ≤ 31 then BitVec.ofInt 32 (b.toInt / 2 ^ amount)
  else if b.msb then 0xFFFFFFFF#32 else 0#32

/-- The 32-bit result of an operation on `opB`, `opC` and the old carry (R200 to R212). -/
def aluResult (op : AluOp) (b c : Word) (cin : Bool) : Word :=
  match op with
  | .pass => c
  | .and => b &&& c
  | .or => b ||| c
  | .xor => b ^^^ c
  | .not => ~~~c
  | .add => BitVec.ofNat 32 (exactSum b c false)
  | .addc => BitVec.ofNat 32 (exactSum b c cin)
  | .sub => BitVec.ofNat 32 (exactSum b (~~~c) true)
  | .subb => BitVec.ofNat 32 (exactSum b (~~~c) cin)
  | .neg => 0#32 - c
  | .shl => shiftLeft b (shiftAmount c)
  | .shr => shiftRight b (shiftAmount c)
  | .ashr => shiftRightArith b (shiftAmount c)

/-- A carry out of 32 bits (R194). -/
def carryOut (t : Nat) : Bool := decide (2 ^ 32 ≤ t)

/-- A signed overflow (R194): the exact value is outside the 32-bit two's-complement range. -/
def signedOverflow (x : Int) : Bool := decide (x < -(2 ^ 31)) || decide (2 ^ 31 - 1 < x)

/-- C after an operation with `Sb = 1`: R194 for the additive operations, the free value `ALU_CV` for the others (R195). Of
PASS, NOT and NEG it sees `opB` too, whose field they ignore (DESIGN CHOICE, log entry 36). -/
def aluCarry (op : AluOp) (b c : Word) (f : Status) : Bool :=
  match op with
  | .add => carryOut (exactSum b c false)
  | .addc => carryOut (exactSum b c f.c)
  | .sub => carryOut (exactSum b (~~~c) true)
  | .subb => carryOut (exactSum b (~~~c) f.c)
  | .pass | .and | .or | .xor | .not | .neg | .shl | .shr | .ashr => (Config.aluCV op b c f.c f.v).1

/-- V after an operation with `Sb = 1`, likewise (R194, R195; log entry 36); SUBB subtracts the borrow `1 - C` as
well. -/
def aluOverflow (op : AluOp) (b c : Word) (f : Status) : Bool :=
  match op with
  | .add => signedOverflow (b.toInt + c.toInt)
  | .addc => signedOverflow (b.toInt + c.toInt + f.c.toInt)
  | .sub => signedOverflow (b.toInt - c.toInt)
  | .subb => signedOverflow (b.toInt - c.toInt - (1 - f.c.toInt))
  | .pass | .and | .or | .xor | .not | .neg | .shl | .shr | .ashr => (Config.aluCV op b c f.c f.v).2

/-- The flags an operation with `Sb = 1` leaves (R193): N and Z from its result, C and V as above; I and M stay. -/
def aluFlags (op : AluOp) (b c : Word) (f : Status) : Status :=
  { f with
    n := (aluResult op b c f.c).msb
    z := aluResult op b c f.c == 0#32
    c := aluCarry op b c f
    v := aluOverflow op b c f }

end Sys2Proof.Machine
end

