-- ==== Sys2Proof/Machine/Alu.lean ====
section
/-! DEFINITION. The ALU instruction and its thirteen operations (`44_alu.md`), each in its register and its immediate
form, over one shared operation. -/

namespace Sys2Proof.Machine

/-- The state after an ALU operation's result and flags are written (R190, R192, R193): the result to Register A unless
`Lnb = 1`, then the flags if `Sb = 1`. Both are computed from the state before either write (R137). -/
def aluWrite (op : AluOp) (m : AluMods) (a : Reg) (x y : Word) (s : State) : State :=
  let t := if m.loadn then s else s.writeReg a (aluResult op x y s.status.c)
  if m.set then { t with status := aluFlags op x y s.status } else t

/-- The ALU instruction (R190): privilege check (R197), then the double write of status that has no meaning (R196), then
operand selection (R191), the operation and its writes. With `Lnb = 1` Register A plays no part (R192). -/
def execAlu (op : AluOp) (cc : Cond) (m : AluMods) (a b : Reg) (src : AluSrc) (s : State) : Result :=
  executeOp cc (.alu op m a b src) s <|
    if !m.loadn && m.set && a == .status then .refused .resultAndFlagsToStatus
    else .next (aluWrite op m a (operandB m b src s) (operandC m b src s) s)

/-- PASS, register form (R200, R97). -/
def execPassR (cc : Cond) (m : AluMods) (a b c : Reg) (s : State) : Result := execAlu .pass cc m a b (.reg c) s

/-- PASS, immediate form (R200, R98). -/
def execPassI (cc : Cond) (m : AluMods) (a b : Reg) (imm : BitVec 8) (s : State) : Result :=
  execAlu .pass cc m a b (.imm imm) s

/-- AND, register form (R201, R97). -/
def execAndR (cc : Cond) (m : AluMods) (a b c : Reg) (s : State) : Result := execAlu .and cc m a b (.reg c) s

/-- AND, immediate form (R201, R98). -/
def execAndI (cc : Cond) (m : AluMods) (a b : Reg) (imm : BitVec 8) (s : State) : Result :=
  execAlu .and cc m a b (.imm imm) s

/-- OR, register form (R202, R97). -/
def execOrR (cc : Cond) (m : AluMods) (a b c : Reg) (s : State) : Result := execAlu .or cc m a b (.reg c) s

/-- OR, immediate form (R202, R98). -/
def execOrI (cc : Cond) (m : AluMods) (a b : Reg) (imm : BitVec 8) (s : State) : Result :=
  execAlu .or cc m a b (.imm imm) s

/-- XOR, register form (R203, R97). -/
def execXorR (cc : Cond) (m : AluMods) (a b c : Reg) (s : State) : Result := execAlu .xor cc m a b (.reg c) s

/-- XOR, immediate form (R203, R98). -/
def execXorI (cc : Cond) (m : AluMods) (a b : Reg) (imm : BitVec 8) (s : State) : Result :=
  execAlu .xor cc m a b (.imm imm) s

/-- NOT, register form (R204, R97). -/
def execNotR (cc : Cond) (m : AluMods) (a b c : Reg) (s : State) : Result := execAlu .not cc m a b (.reg c) s

/-- NOT, immediate form (R204, R98). -/
def execNotI (cc : Cond) (m : AluMods) (a b : Reg) (imm : BitVec 8) (s : State) : Result :=
  execAlu .not cc m a b (.imm imm) s

/-- ADD, register form (R205, R97). -/
def execAddR (cc : Cond) (m : AluMods) (a b c : Reg) (s : State) : Result := execAlu .add cc m a b (.reg c) s

/-- ADD, immediate form (R205, R98). -/
def execAddI (cc : Cond) (m : AluMods) (a b : Reg) (imm : BitVec 8) (s : State) : Result :=
  execAlu .add cc m a b (.imm imm) s

/-- ADDC, register form (R206, R97). -/
def execAddcR (cc : Cond) (m : AluMods) (a b c : Reg) (s : State) : Result := execAlu .addc cc m a b (.reg c) s

/-- ADDC, immediate form (R206, R98). -/
def execAddcI (cc : Cond) (m : AluMods) (a b : Reg) (imm : BitVec 8) (s : State) : Result :=
  execAlu .addc cc m a b (.imm imm) s

/-- SUB, register form (R207, R97). -/
def execSubR (cc : Cond) (m : AluMods) (a b c : Reg) (s : State) : Result := execAlu .sub cc m a b (.reg c) s

/-- SUB, immediate form (R207, R98). -/
def execSubI (cc : Cond) (m : AluMods) (a b : Reg) (imm : BitVec 8) (s : State) : Result :=
  execAlu .sub cc m a b (.imm imm) s

/-- SUBB, register form (R208, R97). -/
def execSubbR (cc : Cond) (m : AluMods) (a b c : Reg) (s : State) : Result := execAlu .subb cc m a b (.reg c) s

/-- SUBB, immediate form (R208, R98). -/
def execSubbI (cc : Cond) (m : AluMods) (a b : Reg) (imm : BitVec 8) (s : State) : Result :=
  execAlu .subb cc m a b (.imm imm) s

/-- NEG, register form (R209, R97). -/
def execNegR (cc : Cond) (m : AluMods) (a b c : Reg) (s : State) : Result := execAlu .neg cc m a b (.reg c) s

/-- NEG, immediate form (R209, R98). -/
def execNegI (cc : Cond) (m : AluMods) (a b : Reg) (imm : BitVec 8) (s : State) : Result :=
  execAlu .neg cc m a b (.imm imm) s

/-- SHL, register form (R210, R97). -/
def execShlR (cc : Cond) (m : AluMods) (a b c : Reg) (s : State) : Result := execAlu .shl cc m a b (.reg c) s

/-- SHL, immediate form (R210, R98). -/
def execShlI (cc : Cond) (m : AluMods) (a b : Reg) (imm : BitVec 8) (s : State) : Result :=
  execAlu .shl cc m a b (.imm imm) s

/-- SHR, register form (R211, R97). -/
def execShrR (cc : Cond) (m : AluMods) (a b c : Reg) (s : State) : Result := execAlu .shr cc m a b (.reg c) s

/-- SHR, immediate form (R211, R98). -/
def execShrI (cc : Cond) (m : AluMods) (a b : Reg) (imm : BitVec 8) (s : State) : Result :=
  execAlu .shr cc m a b (.imm imm) s

/-- ASHR, register form (R212, R97). -/
def execAshrR (cc : Cond) (m : AluMods) (a b c : Reg) (s : State) : Result := execAlu .ashr cc m a b (.reg c) s

/-- ASHR, immediate form (R212, R98). -/
def execAshrI (cc : Cond) (m : AluMods) (a b : Reg) (imm : BitVec 8) (s : State) : Result :=
  execAlu .ashr cc m a b (.imm imm) s

end Sys2Proof.Machine
end

