-- ==== Sys2Proof/Machine/Control.lean ====
section
/-! DEFINITION. NOP and INT (`43_nop_int.md`). -/

namespace Sys2Proof.Machine

/-- NOP (R180): nothing but the step's pc advance, whether the condition holds or not. -/
def execNop (cc : Cond) (s : State) : Result := executeOp cc .nop s (.next s)

/-- INT (R181): software-interrupt entry, in either mode. -/
def execInt (cc : Cond) (s : State) : Result := executeOp cc .int s (enterSwint s)

end Sys2Proof.Machine
end

