-- ==== Sys2Proof/Machine/LoadStore.lean ====
section
/-! DEFINITION. LD, LDR, LDI, ST and STR (`41_load_store.md`). A meaning runs on the state after the pc's advance (R133),
checks its condition first (R134), then privilege (R137), and reads every source before it writes (R137). -/

namespace Sys2Proof.Machine

/-- LD (R151): load from the absolute address. -/
def execLd (cc : Cond) (a : Reg) (addr : BitVec 16) (s : State) : Result :=
  executeOp cc (.ld a addr) s <| load (absoluteAddr addr) s fun v => .next (s.writeReg a v)

/-- LDR (R152): load from base plus offset; the base is read before the destination is written. -/
def execLdr (cc : Cond) (a b : Reg) (off : BitVec 12) (s : State) : Result :=
  executeOp cc (.ldr a b off) s <| load (offsetAddr s b off) s fun v => .next (s.writeReg a v)

/-- LDI (R153): load the extended 16-bit immediate; no memory access. -/
def execLdi (cc : Cond) (a : Reg) (imm : BitVec 16) (s : State) : Result :=
  executeOp cc (.ldi a imm) s <| .next (s.writeReg a (ldiImm imm))

/-- ST (R154): store to the absolute address. -/
def execSt (cc : Cond) (a : Reg) (addr : BitVec 16) (s : State) : Result :=
  executeOp cc (.st a addr) s <| store (absoluteAddr addr) (s.readReg a) s .next

/-- STR (R155): store to base plus offset. -/
def execStr (cc : Cond) (a b : Reg) (off : BitVec 12) (s : State) : Result :=
  executeOp cc (.str a b off) s <| store (offsetAddr s (strBase a b) off) (s.readReg (strData a b)) s .next

end Sys2Proof.Machine
end

