-- ==== Sys2Proof/Machine/Stack.lean ====
section
/-! DEFINITION. PUSH and POP (`42_stack.md`). -/

namespace Sys2Proof.Machine

/-- PUSH (R170); a push of sp itself is left without meaning (R172). -/
def execPush (cc : Cond) (a : Reg) (s : State) : Result :=
  executeOp cc (.push a) s <| if a = .sp then .refused .pushOfSp else push (s.readReg a) s .next

/-- POP (R171): the read uses the old sp, the increment precedes the write of the destination, and the privilege check
precedes both; a pop into sp itself is left without meaning (R172). -/
def execPop (cc : Cond) (a : Reg) (s : State) : Result :=
  executeOp cc (.pop a) s <|
    if a = .sp then .refused .popOfSp
    else load s.sp s fun v => .next (State.writeReg { s with sp := s.sp + 1#32 } a v)

end Sys2Proof.Machine
end

