-- ==== Sys2Proof/Machine/Dispatch.lean ====
section
/-! DEFINITION. One arm per constructor of `Instr`: which meaning an instruction has. -/

namespace Sys2Proof.Machine

open Sys2Proof

/-- The meaning of an instruction on the state after its pc advance (R134). -/
def exec (i : Instr) (s : State) : Host.Outcome State Fault Refusal :=
  match i with
  | .nop cc => Sys2Proof.Machine.execNop cc s
  | .ld cc a addr => Sys2Proof.Machine.execLd cc a addr s
  | .ldr cc a b off => Sys2Proof.Machine.execLdr cc a b off s
  | .ldi cc a imm => Sys2Proof.Machine.execLdi cc a imm s
  | .st cc a addr => Sys2Proof.Machine.execSt cc a addr s
  | .str cc a b off => Sys2Proof.Machine.execStr cc a b off s
  | .push cc a => Sys2Proof.Machine.execPush cc a s
  | .pop cc a => Sys2Proof.Machine.execPop cc a s
  | .int cc => Sys2Proof.Machine.execInt cc s
  | .passR cc m a b c => Sys2Proof.Machine.execPassR cc m a b c s
  | .passI cc m a b imm => Sys2Proof.Machine.execPassI cc m a b imm s
  | .andR cc m a b c => Sys2Proof.Machine.execAndR cc m a b c s
  | .andI cc m a b imm => Sys2Proof.Machine.execAndI cc m a b imm s
  | .orR cc m a b c => Sys2Proof.Machine.execOrR cc m a b c s
  | .orI cc m a b imm => Sys2Proof.Machine.execOrI cc m a b imm s
  | .xorR cc m a b c => Sys2Proof.Machine.execXorR cc m a b c s
  | .xorI cc m a b imm => Sys2Proof.Machine.execXorI cc m a b imm s
  | .notR cc m a b c => Sys2Proof.Machine.execNotR cc m a b c s
  | .notI cc m a b imm => Sys2Proof.Machine.execNotI cc m a b imm s
  | .addR cc m a b c => Sys2Proof.Machine.execAddR cc m a b c s
  | .addI cc m a b imm => Sys2Proof.Machine.execAddI cc m a b imm s
  | .addcR cc m a b c => Sys2Proof.Machine.execAddcR cc m a b c s
  | .addcI cc m a b imm => Sys2Proof.Machine.execAddcI cc m a b imm s
  | .subR cc m a b c => Sys2Proof.Machine.execSubR cc m a b c s
  | .subI cc m a b imm => Sys2Proof.Machine.execSubI cc m a b imm s
  | .subbR cc m a b c => Sys2Proof.Machine.execSubbR cc m a b c s
  | .subbI cc m a b imm => Sys2Proof.Machine.execSubbI cc m a b imm s
  | .negR cc m a b c => Sys2Proof.Machine.execNegR cc m a b c s
  | .negI cc m a b imm => Sys2Proof.Machine.execNegI cc m a b imm s
  | .shlR cc m a b c => Sys2Proof.Machine.execShlR cc m a b c s
  | .shlI cc m a b imm => Sys2Proof.Machine.execShlI cc m a b imm s
  | .shrR cc m a b c => Sys2Proof.Machine.execShrR cc m a b c s
  | .shrI cc m a b imm => Sys2Proof.Machine.execShrI cc m a b imm s
  | .ashrR cc m a b c => Sys2Proof.Machine.execAshrR cc m a b c s
  | .ashrI cc m a b imm => Sys2Proof.Machine.execAshrI cc m a b imm s

end Sys2Proof.Machine
end

