-- ==== Sys2Proof/Machine/Cycle.lean ====
section
/-! DEFINITION. The instruction cycle (`40_step_and_conditions.md` R130 to R134) and how a word is placed where the next
cycle fetches it. -/

namespace Sys2Proof.Machine

/-- A rejected word has no meaning (R134): the refusal names the reason and the word. -/
def refuseWord (w : Word) : Reject → Result
  | .reservedCondition => .refused (.reservedCondition w)
  | .undefinedInstruction => .refused (.undefinedInstruction w)
  | .undefinedAluOperation => .refused (.undefinedAluOperation w)

/-- Fetch, advance, decode and execute one instruction (R132 to R134). -/
def cycleInstr (s : State) : Result :=
  fetch s fun w t =>
    match decode w with
    | .instr i => exec i t
    | .rejected r => refuseWord w r

/-- One cycle (R130): the coming boundary is passed; reset overrides everything (R239, R270); an enabled interrupt whose
line is high is entered in place of an instruction (R131); otherwise one instruction runs. -/
def cycle (s : State) : Result :=
  if s.boundary.reset then .next s.passBoundary.start
  else if s.status.i && s.boundary.hwint then enterHwint s.passBoundary
  else cycleInstr s.passBoundary

/-- Memory with a word placed in a cell from outside, the cell added to `MEM_MAP` where it was not backed. -/
def Memory.placeWord (m : Memory) (addr v : Word) : Memory where
  map := if m.backs (cellIndex addr) then m.map else ⟨cellIndex addr, 1⟩ :: m.map
  cells := putCell (cellIndex addr) (cellValue v) m.cells

/-- The inputs with the coming boundary made quiet. -/
def quietNext : List Boundary → List Boundary
  | [] => []
  | _ :: rest => .quiet :: rest

end Sys2Proof.Machine
end

