-- ==== Sys2Proof/Machine/Step.lean ====
section
/-! DEFINITION. One step of the machine, and where the host places an instruction for the next step to fetch. -/

namespace Sys2Proof.Machine

/-- One step (R130): one cycle. -/
def step (s : State) : Host.Outcome State Fault Refusal := cycle s

/-- The state with a word placed where the next step fetches (log entry 6): the cell at pc holds it, `MEM_MAP` backs that
cell, and the coming boundary, if the list names one, is quiet. The bits from `nbits` on are 0. -/
def State.withFetchWord (s : State) (nbits w : Nat) : State :=
  { s with
    mem := s.mem.placeWord s.pc (BitVec.ofNat 32 (w % 2 ^ nbits))
    inputs := quietNext s.inputs }

end Sys2Proof.Machine
end

