-- ==== Sys2Proof/Safety.lean ====
section
/-! DEFINITION. The terms in which claims are made: what a run must keep, what it is for an instruction to execute, what
the writes of a register, of a cell and of a trap entry amount to, written field by field from the spec's rules and
without the operations the meanings use; and the masks and patterns of `spec/opcode_table.json`. -/

namespace Sys2Proof.Safety

open Sys2Proof Sys2Proof.Machine

/-- What every step keeps: memory stays in its canonical form, every listed cell one that `MEM_MAP` backs. -/
def MemoryInv (s : State) : Prop := s.mem.wf = true

/-- The instruction is a privileged operation that is run in user mode (R234). -/
def Privileged (i : Instr) (s : State) : Prop :=
  condHolds i.cond s.status = true ∧ i.core.dest = some .status ∧ s.status.m = true

/-- Nothing but an instruction happens in the coming step: no reset, and no enabled interrupt whose line is high (R131). -/
def QuietBoundary (s : State) : Prop :=
  s.boundary.reset = false ∧ ¬ (s.status.i = true ∧ s.boundary.hwint = true)

/-- The instruction executes with its own effect: its condition holds (R134), it is no privileged operation in user
mode (R234), and it is none of the combinations left without meaning (R172, R196). -/
def Executes (i : Instr) (s : State) : Prop :=
  condHolds i.cond s.status = true ∧ ¬ (i.core.dest = some .status ∧ s.status.m = true) ∧ i.wellFormed = true

/-- The flags that the low six bits of a number stand for (R38). -/
def flagsOf (v : Word) : Status :=
  ⟨v.getLsbD 5, v.getLsbD 4, v.getLsbD 3, v.getLsbD 2, v.getLsbD 1, v.getLsbD 0⟩

/-- `t` is `s` after `x[a] <- v` (R31): register `a` holds `v`, a write of pc sets lr to the old pc, and nothing else
has changed. -/
def WritesDest (a : Reg) (v : Word) (s t : State) : Prop :=
  (∀ n : Fin 12, t.gpr[n] = if a = .r n then v else s.gpr[n]) ∧
  t.status = (if a = .status then flagsOf v else s.status) ∧
  t.sp = (if a = .sp then v else s.sp) ∧
  t.lr = (if a = .lr then v else if a = .pc then s.pc else s.lr) ∧
  t.pc = (if a = .pc then v else s.pc) ∧
  t.mem = s.mem ∧ t.inputs = s.inputs

/-- The memory of `t` is that of `s` after one cell was written: that cell reads as `v`, every other address reads as
before, and `MEM_MAP` is the same. -/
def StoresCell (addr v : Word) (s t : State) : Prop :=
  t.mem.map = s.mem.map ∧ t.mem.read addr = .ok v ∧ ∀ x : Word, x ≠ addr → t.mem.read x = s.mem.read x

/-- Every register and the inputs are unchanged. -/
def SameRegs (s t : State) : Prop :=
  t.gpr = s.gpr ∧ t.status = s.status ∧ t.sp = s.sp ∧ t.lr = s.lr ∧ t.pc = s.pc ∧ t.inputs = s.inputs

/-- `t` is `s` after `TrapEnter(vec, clearI)` (R236): pc at `sp - 1`, lr at `sp - 2`, sp two lower, supervisor mode,
`status.I` cleared if asked, pc at the vector; N, Z, C, V, lr, the general registers, every other cell and the inputs
are unchanged. -/
def Trapped (vec : Word) (clearI : Bool) (s t : State) : Prop :=
  t.sp = s.sp - 2#32 ∧
  t.mem.read (s.sp - 1#32) = .ok s.pc ∧
  t.mem.read (s.sp - 2#32) = .ok s.lr ∧
  (∀ x : Word, x ≠ s.sp - 1#32 → x ≠ s.sp - 2#32 → t.mem.read x = s.mem.read x) ∧
  t.mem.map = s.mem.map ∧
  t.status = { s.status with i := s.status.i && !clearI, m := false } ∧
  t.pc = vec ∧ t.lr = s.lr ∧ t.gpr = s.gpr ∧ t.inputs = s.inputs

/-- Both cells a trap entry pushes to are backed by memory. -/
def CanPushTwo (s : State) : Prop :=
  s.mem.backs (s.sp - 1#32).toNat = true ∧ s.mem.backs (s.sp - 2#32).toNat = true

/-- What becomes of a trap entry from `s` whose pushes find no memory: it stops with `noMemory` at the first cell without
memory, the first push's or, where that one is backed, the second's. -/
def TrapStops (s : State) (r : Result) : Prop :=
  (s.mem.backs (s.sp - 1#32).toNat = false → r = .fault (.noMemory (s.sp - 1#32))) ∧
  (s.mem.backs (s.sp - 1#32).toNat = true → s.mem.backs (s.sp - 2#32).toNat = false →
    r = .fault (.noMemory (s.sp - 2#32)))

/-- The operands `(opB, opC)` of an ALU instruction (R191), the immediate zero-extended. -/
def aluOperands (m : AluMods) (b : Reg) (src : AluSrc) (s : State) : Word × Word :=
  let first := s.readReg b
  let second := match src with
    | .reg c => s.readReg c
    | .imm v => v.setWidth 32
  if m.rev then (second, first) else (first, second)

/-- An ALU instruction executes with its own effect: its condition holds, its write of status (if it has one) is not
user mode's (R197), and its result and its flags do not both go to status (R196). -/
def AluRuns (cc : Cond) (m : AluMods) (a : Reg) (s : State) : Prop :=
  condHolds cc s.status = true ∧
  (m.loadn = false → ¬ (a = .status ∧ s.status.m = true)) ∧
  (m.loadn = false → ¬ (a = .status ∧ m.set = true))

/-- `t` is `s` after an ALU instruction with result `res` and carry and overflow `c`, `v` (R190, R192, R193): the result
in Register A unless `Lnb = 1`, N, Z, C and V set if `Sb = 1`, I and M as they were but for a write of status, and nothing
else changed. -/
def AluWrites (m : AluMods) (a : Reg) (res : Word) (c v : Bool) (s t : State) : Prop :=
  (∀ n : Fin 12, t.gpr[n] = if m.loadn = false ∧ a = .r n then res else s.gpr[n]) ∧
  t.status = (if m.set then { s.status with n := res.msb, z := decide (res = 0#32), c := c, v := v }
    else if m.loadn = false ∧ a = .status then flagsOf res else s.status) ∧
  t.sp = (if m.loadn = false ∧ a = .sp then res else s.sp) ∧
  t.lr = (if m.loadn = false ∧ a = .lr then res else if m.loadn = false ∧ a = .pc then s.pc else s.lr) ∧
  t.pc = (if m.loadn = false ∧ a = .pc then res else s.pc) ∧
  t.mem = s.mem ∧ t.inputs = s.inputs

/-- What an instruction that takes no trap leaves unchanged in the registers: every general register but its
destination, sp but for PUSH, POP and a destination, lr but for a destination lr or pc, the flags N, Z, C, V but for a
destination status or `Sb = 1`, I and M but for a destination status, and the inputs. The pc may change. -/
def RegFrame (i : Instr) (s t : State) : Prop :=
  (∀ n : Fin 12, i.core.dest ≠ some (.r n) → t.gpr[n] = s.gpr[n]) ∧
  (i.core.dest ≠ some .sp → (∀ a, i.core ≠ .push a) → (∀ a, i.core ≠ .pop a) → t.sp = s.sp) ∧
  (i.core.dest ≠ some .lr → i.core.dest ≠ some .pc → t.lr = s.lr) ∧
  (i.core.dest ≠ some .status → i.core.setsFlags = false → t.status = s.status) ∧
  (i.core.dest ≠ some .status → t.status.i = s.status.i ∧ t.status.m = s.status.m) ∧
  t.inputs = s.inputs

/-- The address an instruction stores to (R154, R155, R170): absolute for ST, base plus offset for STR, one below sp for
PUSH. INT stores by trap entry. -/
def storeAddr (s : State) : CoreOp → Option Word
  | .st _ addr => some (absoluteAddr addr)
  | .str a b off => some (offsetAddr s (strBase a b) off)
  | .push _ => some (s.sp - 1#32)
  | _ => none

/-- The word it stores there: the register's value, status as a number (R154, R155, R170). -/
def storeData (s : State) : CoreOp → Option Word
  | .st a _ => some (s.readReg a)
  | .str a b _ => some (s.readReg (strData a b))
  | .push a => some (s.readReg a)
  | _ => none

/-- The registers an instruction names as sources (R30): the base of LDR, the datum and the base of STR, the datum of ST and
PUSH, and the registers B and C of the ALU instruction (whether or not its operation uses both). -/
def sources : CoreOp → List Reg
  | .ldr _ b _ => [b]
  | .st a _ => [a]
  | .str a b _ => [a, b]
  | .push a => [a]
  | .alu _ _ _ b (.reg c) => [b, c]
  | .alu _ _ _ b (.imm _) => [b]
  | .nop | .ld _ _ | .ldi _ _ | .pop _ | .int => []

/-- The `match` of the opcode table's row of an instruction. -/
def rowMatch (i : Instr) : Word :=
  match i.core with
  | .nop => 0x00000000#32
  | .ld _ _ => 0x00100000#32
  | .ldr _ _ _ => 0x00200000#32
  | .ldi _ _ => 0x00300000#32
  | .st _ _ => 0x00400000#32
  | .str _ _ _ => 0x00500000#32
  | .push _ => 0x00600000#32
  | .pop _ => 0x00700000#32
  | .int => 0x00800000#32
  | .alu .pass _ _ _ (.reg _) => 0x0F000000#32
  | .alu .pass _ _ _ (.imm _) => 0x0F080000#32
  | .alu .and _ _ _ (.reg _) => 0x0F100000#32
  | .alu .and _ _ _ (.imm _) => 0x0F180000#32
  | .alu .or _ _ _ (.reg _) => 0x0F200000#32
  | .alu .or _ _ _ (.imm _) => 0x0F280000#32
  | .alu .xor _ _ _ (.reg _) => 0x0F300000#32
  | .alu .xor _ _ _ (.imm _) => 0x0F380000#32
  | .alu .not _ _ _ (.reg _) => 0x0F400000#32
  | .alu .not _ _ _ (.imm _) => 0x0F480000#32
  | .alu .add _ _ _ (.reg _) => 0x0F500000#32
  | .alu .add _ _ _ (.imm _) => 0x0F580000#32
  | .alu .addc _ _ _ (.reg _) => 0x0F600000#32
  | .alu .addc _ _ _ (.imm _) => 0x0F680000#32
  | .alu .sub _ _ _ (.reg _) => 0x0F700000#32
  | .alu .sub _ _ _ (.imm _) => 0x0F780000#32
  | .alu .subb _ _ _ (.reg _) => 0x0F800000#32
  | .alu .subb _ _ _ (.imm _) => 0x0F880000#32
  | .alu .neg _ _ _ (.reg _) => 0x0F900000#32
  | .alu .neg _ _ _ (.imm _) => 0x0F980000#32
  | .alu .shl _ _ _ (.reg _) => 0x0FA00000#32
  | .alu .shl _ _ _ (.imm _) => 0x0FA80000#32
  | .alu .shr _ _ _ (.reg _) => 0x0FB00000#32
  | .alu .shr _ _ _ (.imm _) => 0x0FB80000#32
  | .alu .ashr _ _ _ (.reg _) => 0x0FC00000#32
  | .alu .ashr _ _ _ (.imm _) => 0x0FC80000#32

/-- The `mask` of that row. -/
def rowMask (i : Instr) : Word :=
  match i.core with
  | .alu _ _ _ _ _ => 0x0FF80000#32
  | _ => 0x0FF00000#32

end Sys2Proof.Safety
end

