-- ==== Sys2Proof/Certificates/Slice0/Obligations.lean ====
section
/-! DEFINITION. The statements for the provers. A statement about an instruction is about `exec`, which runs on the state
after the pc's advance: there `s.pc` is `a + 1` for the instruction fetched from `a` (R33; D10, log entry 18).

D<n> names one of the spec's own decisions (`92_eei_decisions.md`): what it fixes the source does not say, the model takes
it over, and the log entry beside it says so. The terms of `Safety.lean` rest on such decisions too: `WritesDest` on D2 and
D34 (log entries 13, 28), `Trapped` on D17 and D28 (23, 30), `Privileged` on D15 (14), `AluRuns` on D15 and D20 (14, 25),
`aluOperands` on D7 (10), `QuietBoundary` on D18 (24) and on the model's own list of inputs (7). -/

open Sys2Proof Sys2Proof.Machine Sys2Proof.Safety

/-! ### Reset -/

/-- R271: after reset every register is 0, so supervisor mode with hardware interrupts off. -/
def Obligations.ResetRegistersAreZero : Prop :=
  (∀ n : Fin 12, State.reset.gpr[n] = 0#32) ∧
  State.reset.status = ⟨false, false, false, false, false, false⟩ ∧
  State.reset.sp = 0#32 ∧ State.reset.lr = 0#32 ∧ State.reset.pc = 0#32 ∧
  ∀ r : Reg, State.reset.readReg r = 0#32

/-- The model's choice for `RESET_MEM` and `MEM_MAP` (D26, D27, log entries 3 and 5): after power-on a read of any address
stops on a cell without a value, and so does the first step. -/
def Obligations.ResetMemoryHoldsNoValue : Prop :=
  (∀ a : Word, State.reset.mem.read a = .error (.noValue a)) ∧ step State.reset = .fault (.noValue 0#32)

/-- The invariant of `StepKeepsMemoryCanonical` holds after reset. -/
def Obligations.ResetMeetsMemoryInvariant : Prop := MemoryInv State.reset

/-- The reset event in any state (R270; the form of the input is log entry 7, that memory stays as it was
is vector T8, log entry 33). -/
def Obligations.ResetEventClearsRegisters : Prop :=
  ∀ s : State, s.boundary.reset = true →
    ∃ t, step s = .next t ∧ (∀ r : Reg, t.readReg r = 0#32) ∧
      t.status = ⟨false, false, false, false, false, false⟩ ∧ t.mem = s.mem ∧ t.inputs = s.inputs.tail

/-! ### Invariants -/

/-- Every step keeps memory in its canonical form: addresses strictly rising, every listed cell backed by `MEM_MAP`. -/
def Obligations.StepKeepsMemoryCanonical : Prop :=
  ∀ s t : State, step s = .next t → MemoryInv s → MemoryInv t

/-- No step changes `MEM_MAP` (a parameter of the platform, D4, log entry 3): the same addresses are backed afterwards. -/
def Obligations.StepKeepsMemoryMap : Prop :=
  ∀ s t : State, step s = .next t → t.mem.map = s.mem.map ∧ ∀ a, t.mem.backs a = s.mem.backs a

/-! ### Encoding -/

/-- Decoding an encoded instruction gives it back, with every operand at every value. -/
def Obligations.DecodeOfEncodeIsIdentity : Prop := ∀ i : Instr, decode (encode i) = .instr i

/-- Words of `95_test_vectors.md` 2.1, one or more of each family, decode as the table there says. -/
def Obligations.SampleWordsDecode : Prop :=
  decode 0x10000000#32 = .instr (.nop .eq) ∧
  decode 0xA0800000#32 = .instr (.int .sge) ∧
  decode 0x00120100#32 = .instr (.ld .none (.r 2) 0x0100#16) ∧
  decode 0x00234005#32 = .instr (.ldr .none (.r 3) (.r 4) 0x005#12) ∧
  decode 0x203F0012#32 = .instr (.ldi .ne .pc 0x0012#16) ∧
  decode 0x00534005#32 = .instr (.str .none (.r 3) (.r 4) 0x005#12) ∧
  decode 0x00650000#32 = .instr (.push .none (.r 5)) ∧
  decode 0x007F0000#32 = .instr (.pop .none .pc) ∧
  decode 0x0F501230#32 = .instr (.addR .none ⟨false, false, false⟩ (.r 1) (.r 2) (.r 3)) ∧
  decode 0x0F7C117B#32 = .instr (.subI .none ⟨true, false, false⟩ (.r 1) (.r 1) 0x7B#8) ∧
  decode 0x0F730120#32 = .instr (.subR .none ⟨false, true, true⟩ (.r 0) (.r 1) (.r 2)) ∧
  decode 0x00900000#32 = .rejected .undefinedInstruction ∧
  decode 0x0FD01230#32 = .rejected .undefinedAluOperation ∧
  decode 0xB0000000#32 = .rejected .reservedCondition

/-- A word that decodes selects its instruction's row of `spec/opcode_table.json` and carries its condition. -/
def Obligations.DecodedWordSelectsItsTableRow : Prop :=
  ∀ (w : Word) (i : Instr), decode w = .instr i → w &&& rowMask i = rowMatch i ∧ field 28 4 w = i.cond.code

/-- A word is rejected exactly when its condition code is 11 to 15, or its instruction code is `0x09` to `0xEF` or `0xFD`
to `0xFF` (R108 to R110, R113; D12 and D13, log entry 20). -/
def Obligations.DecoderRejectsExactlyUndefinedCodes : Prop :=
  ∀ w : Word, (∃ r, decode w = .rejected r) ↔
    11 ≤ (field 28 4 w).toNat ∨
    (0x09 ≤ (field 20 8 w).toNat ∧ (field 20 8 w).toNat ≤ 0xEF) ∨ 0xFD ≤ (field 20 8 w).toNat

/-- The Unused bits select nothing (R107; D14, log entry 21): `w[19:0]` of NOP and INT, `w[15:0]` of PUSH and POP, `w[3:0]` of an ALU
word with `Ib = 0`. -/
def Obligations.UnusedBitsAreIgnored : Prop :=
  ∀ u w : Word,
    (field 20 12 u = field 20 12 w → (field 20 8 w = 0x00#8 ∨ field 20 8 w = 0x08#8) → decode u = decode w) ∧
    (field 16 16 u = field 16 16 w → (field 20 8 w = 0x06#8 ∨ field 20 8 w = 0x07#8) → decode u = decode w) ∧
    (field 4 28 u = field 4 28 w → field 24 4 w = 0xF#4 → field 19 1 w = 0#1 → decode u = decode w)

/-! ### The step -/

/-- When the word at pc decodes to an instruction and the boundary is quiet, the step is that instruction's `exec` on the
state whose pc is advanced and whose boundary is passed (R131 to R134; D10 and D18, log entries 18, 24 and 7). -/
def Obligations.StepRunsDecodedInstruction : Prop :=
  ∀ (s : State) (w : Word) (i : Instr), QuietBoundary s → s.mem.read s.pc = .ok w → decode w = .instr i →
    step s = exec i { s with pc := s.pc + 1#32, inputs := s.inputs.tail }

/-- A fetch without a result stops the step by the read's fault (R64; D27, log entries 4 and 5); a rejected word stops it by
a refusal that names the reason and the word (R134; D12 and D13, log entry 20). -/
def Obligations.StepStopsOnUnreadableOrRejectedWord : Prop :=
  ∀ s : State, QuietBoundary s →
    (∀ f, s.mem.read s.pc = .error f → step s = .fault f) ∧
    (∀ w, s.mem.read s.pc = .ok w → decode w = .rejected .reservedCondition →
      step s = .refused (.reservedCondition w)) ∧
    (∀ w, s.mem.read s.pc = .ok w → decode w = .rejected .undefinedInstruction →
      step s = .refused (.undefinedInstruction w)) ∧
    (∀ w, s.mem.read s.pc = .ok w → decode w = .rejected .undefinedAluOperation →
      step s = .refused (.undefinedAluOperation w))

/-- An enabled hardware interrupt whose line is high is entered in place of an instruction (R231, R232): vector 1, the
pushed pc is that of the instruction not run, `status.I` is cleared (D17 and D18, log entries 23 and 24). -/
def Obligations.StepTakesHardwareInterrupt : Prop :=
  ∀ s : State, s.boundary.reset = false → s.status.i = true → s.boundary.hwint = true → CanPushTwo s →
    ∃ t, step s = .next t ∧ Trapped 1#32 true { s with inputs := s.inputs.tail } t

/-! ### Conditions -/

/-- R135: the condition table, by code. -/
def Obligations.ConditionTableByCode : Prop :=
  ∀ (k : BitVec 4) (cc : Cond) (f : Status), Cond.ofCode k = some cc →
    condHolds cc f =
      if k = 0#4 then true
      else if k = 1#4 then f.z
      else if k = 2#4 then !f.z
      else if k = 3#4 then !f.c
      else if k = 4#4 then f.c && !f.z
      else if k = 5#4 then !f.c || f.z
      else if k = 6#4 then f.c
      else if k = 7#4 then f.n != f.v
      else if k = 8#4 then !f.z && (f.n == f.v)
      else if k = 9#4 then f.z || (f.n != f.v)
      else f.n == f.v

/-- R139: after a compare (SUB with `Lnb = 1` and `Sb = 1`), each condition says of `x = opB` and `y = opC` what the
source's description column says; the compare changes nothing but N, Z, C and V (a derived rule: log entries 10 and 16). -/
def Obligations.ConditionsAfterCompare : Prop :=
  ∀ (cc : Cond) (rev : Bool) (a b : Reg) (src : AluSrc) (s : State), condHolds cc s.status = true →
    ∃ t, exec (.alu .sub cc ⟨rev, true, true⟩ a b src) s = .next t ∧ t = { s with status := t.status } ∧
      t.status.i = s.status.i ∧ t.status.m = s.status.m ∧
      let x := (aluOperands ⟨rev, true, true⟩ b src s).1
      let y := (aluOperands ⟨rev, true, true⟩ b src s).2
      (condHolds .none t.status = true) ∧
      (condHolds .eq t.status = true ↔ x = y) ∧
      (condHolds .ne t.status = true ↔ x ≠ y) ∧
      (condHolds .ult t.status = true ↔ x.toNat < y.toNat) ∧
      (condHolds .ugt t.status = true ↔ y.toNat < x.toNat) ∧
      (condHolds .ule t.status = true ↔ x.toNat ≤ y.toNat) ∧
      (condHolds .uge t.status = true ↔ y.toNat ≤ x.toNat) ∧
      (condHolds .slt t.status = true ↔ x.toInt < y.toInt) ∧
      (condHolds .sgt t.status = true ↔ y.toInt < x.toInt) ∧
      (condHolds .sle t.status = true ↔ x.toInt ≤ y.toInt) ∧
      (condHolds .sge t.status = true ↔ y.toInt ≤ x.toInt)

/-- An instruction whose condition is false leaves the state as the pc's advance left it (R136; D11, log entry 19). -/
def Obligations.FalseConditionHasNoEffect : Prop :=
  ∀ (i : Instr) (s : State), condHolds i.cond s.status = false → exec i s = .next s

/-! ### Loads, stores, stack, NOP and INT: where each completes, and with what -/

/-- LD (R151; the address zero-extended by D5, the privilege check by D15; log entries 8 and 14). -/
def Obligations.LdLoadsAbsolute : Prop :=
  ∀ (cc : Cond) (a : Reg) (addr : BitVec 16) (s : State) (v : Word), condHolds cc s.status = true →
    ¬ (a = .status ∧ s.status.m = true) → s.mem.read (addr.setWidth 32) = .ok v →
    ∃ t, exec (.ld cc a addr) s = .next t ∧ WritesDest a v s t

/-- LDR (R152; the offset zero-extended and added by D8, the privilege check by D15; log entries 11 and 14). -/
def Obligations.LdrLoadsBasePlusOffset : Prop :=
  ∀ (cc : Cond) (a b : Reg) (off : BitVec 12) (s : State) (v : Word), condHolds cc s.status = true →
    ¬ (a = .status ∧ s.status.m = true) → s.mem.read (s.readReg b + off.setWidth 32) = .ok v →
    ∃ t, exec (.ldr cc a b off) s = .next t ∧ WritesDest a v s t

/-- LDI (R153; the immediate zero-extended by D6, the privilege check by D15; log entries 9 and 14). -/
def Obligations.LdiLoadsImmediate : Prop :=
  ∀ (cc : Cond) (a : Reg) (imm : BitVec 16) (s : State), condHolds cc s.status = true →
    ¬ (a = .status ∧ s.status.m = true) →
    ∃ t, exec (.ldi cc a imm) s = .next t ∧ WritesDest a (imm.setWidth 32) s t

/-- ST (R154; the address zero-extended by D5, log entry 8): one cell is written, no register is. -/
def Obligations.StStoresAbsolute : Prop :=
  ∀ (cc : Cond) (a : Reg) (addr : BitVec 16) (s : State), condHolds cc s.status = true →
    s.mem.backs (addr.setWidth 32 : Word).toNat = true →
    ∃ t, exec (.st cc a addr) s = .next t ∧ StoresCell (addr.setWidth 32) (s.readReg a) s t ∧ SameRegs s t

/-- STR (R155; Register A is the datum and B the base by D9, the offset zero-extended by D8; log entries 12 and 11). -/
def Obligations.StrStoresBasePlusOffset : Prop :=
  ∀ (cc : Cond) (a b : Reg) (off : BitVec 12) (s : State), condHolds cc s.status = true →
    s.mem.backs (s.readReg b + off.setWidth 32).toNat = true →
    ∃ t, exec (.str cc a b off) s = .next t ∧
      StoresCell (s.readReg b + off.setWidth 32) (s.readReg a) s t ∧ SameRegs s t

/-- PUSH of any register but sp (R170): sp is one lower and the cell there holds the register's old value
(status as a number by D2, log entry 13). -/
def Obligations.PushStoresBelowSp : Prop :=
  ∀ (cc : Cond) (a : Reg) (s : State), condHolds cc s.status = true → a ≠ .sp →
    s.mem.backs (s.sp - 1#32).toNat = true →
    ∃ t, exec (.push cc a) s = .next t ∧ StoresCell (s.sp - 1#32) (s.readReg a) s t ∧
      SameRegs { s with sp := s.sp - 1#32 } t

/-- POP into any register but sp (R171; the privilege check by D15, log entry 14): the register gets the cell at the old sp, and sp is
one higher; a pop into pc links (D34, log entry 28). -/
def Obligations.PopLoadsAtSp : Prop :=
  ∀ (cc : Cond) (a : Reg) (s : State) (v : Word), condHolds cc s.status = true → a ≠ .sp →
    ¬ (a = .status ∧ s.status.m = true) → s.mem.read s.sp = .ok v →
    ∃ t, exec (.pop cc a) s = .next t ∧ WritesDest a v { s with sp := s.sp + 1#32 } t

/-- R180: NOP changes nothing whatever its condition, the all-zero word is one, and a step whose word decodes to a NOP changes
nothing but the pc, which advances by one (and passes the boundary). -/
def Obligations.NopChangesOnlyPc : Prop :=
  (∀ (cc : Cond) (s : State), exec (.nop cc) s = .next s) ∧
  decode 0x00000000#32 = .instr (.nop .none) ∧
  ∀ (s : State) (w : Word) (cc : Cond), QuietBoundary s → s.mem.read s.pc = .ok w → decode w = .instr (.nop cc) →
    step s = .next { s with pc := s.pc + 1#32, inputs := s.inputs.tail }

/-- INT (R181, R233; the push order and the unchanged lr by D17, log entry 23). -/
def Obligations.IntEntersSoftwareInterrupt : Prop :=
  ∀ (cc : Cond) (s : State), condHolds cc s.status = true → CanPushTwo s →
    ∃ t, exec (.int cc) s = .next t ∧ Trapped 2#32 false s t

/-! ### Where an instruction traps or stops -/

/-- A privileged operation run in user mode has no effect of its own and raises the exception (R234, R240; the privileged
set by D15, the saved pc by D16; log entries 14 and 22): vector 3, `status.I` unchanged. -/
def Obligations.PrivilegedOperationRaisesException : Prop :=
  ∀ (i : Instr) (s : State), Privileged i s → CanPushTwo s →
    ∃ t, exec i s = .next t ∧ Trapped 3#32 false s t

/-- The combinations the spec leaves without meaning are refused by name when they execute: PUSH and POP of sp (R172,
D22, log entry 26), and an ALU result and flags that both go to status, in supervisor mode (R196; D20, log entry 25). -/
def Obligations.CombinationsWithoutMeaningAreRefused : Prop :=
  ∀ (cc : Cond) (s : State), condHolds cc s.status = true →
    exec (.push cc .sp) s = .refused .pushOfSp ∧
    exec (.pop cc .sp) s = .refused .popOfSp ∧
    ∀ (op : AluOp) (rev : Bool) (b : Reg) (src : AluSrc), s.status.m = false →
      exec (.alu op cc ⟨rev, false, true⟩ .status b src) s = .refused .resultAndFlagsToStatus

/-- An executed access without a result stops the machine with the access's fault (R64, R65; D27, log entries 4 and 5): a
load where the read has none, a store or a push where no memory is, and a trap entry, by INT, by the exception or by the
hardware interrupt, at the first of its two pushes that finds no memory (log entry 34). The addresses are those of D5, D8 and
D9 (log entries 8, 11, 12), the privileged operations those of D15 (14), the sampling of the line is D18 (24, 7). -/
def Obligations.AccessWithoutResultStops : Prop :=
  (∀ (cc : Cond) (s : State), condHolds cc s.status = true →
    (∀ a addr f, ¬ (a = .status ∧ s.status.m = true) → s.mem.read (addr.setWidth 32) = .error f →
      exec (.ld cc a addr) s = .fault f) ∧
    (∀ a b off f, ¬ (a = .status ∧ s.status.m = true) → s.mem.read (s.readReg b + off.setWidth 32) = .error f →
      exec (.ldr cc a b off) s = .fault f) ∧
    (∀ a f, a ≠ .sp → ¬ (a = .status ∧ s.status.m = true) → s.mem.read s.sp = .error f →
      exec (.pop cc a) s = .fault f) ∧
    (∀ a (addr : BitVec 16), s.mem.backs (addr.setWidth 32 : Word).toNat = false →
      exec (.st cc a addr) s = .fault (.noMemory (addr.setWidth 32))) ∧
    (∀ a b (off : BitVec 12), s.mem.backs (s.readReg b + off.setWidth 32).toNat = false →
      exec (.str cc a b off) s = .fault (.noMemory (s.readReg b + off.setWidth 32))) ∧
    (∀ a, a ≠ .sp → s.mem.backs (s.sp - 1#32).toNat = false →
      exec (.push cc a) s = .fault (.noMemory (s.sp - 1#32))) ∧
    TrapStops s (exec (.int cc) s)) ∧
  (∀ (i : Instr) (s : State), Privileged i s → TrapStops s (exec i s)) ∧
  (∀ s : State, s.boundary.reset = false → s.status.i = true → s.boundary.hwint = true → TrapStops s (step s))

/-! ### The ALU operations: where each completes, and with what

Each rests on D7, D15 and D20 (log entries 10, 14, 25); C and V on D19: the free value of log entry 15 (which of PASS, NOT and
NEG may see `opB` too, log entry 36), or the reading of log entry 16. -/

/-- PASS, both forms (`passR`, `passI`; R200): the result is `opC`; C and V are the free value `ALU_CV` (R195). -/
def Obligations.PassMovesOpC : Prop :=
  ∀ (cc : Cond) (m : AluMods) (a b : Reg) (src : AluSrc) (s : State), AluRuns cc m a s →
    let x := (aluOperands m b src s).1
    let y := (aluOperands m b src s).2
    let cv := Config.aluCV .pass x y s.status.c s.status.v
    ∃ t, exec (.alu .pass cc m a b src) s = .next t ∧ AluWrites m a y cv.1 cv.2 s t

/-- AND, both forms (`andR`, `andI`; R201), bit by bit. -/
def Obligations.AndIsBitwise : Prop :=
  ∀ (cc : Cond) (m : AluMods) (a b : Reg) (src : AluSrc) (s : State), AluRuns cc m a s →
    let x := (aluOperands m b src s).1
    let y := (aluOperands m b src s).2
    let cv := Config.aluCV .and x y s.status.c s.status.v
    ∃ t res, exec (.alu .and cc m a b src) s = .next t ∧ AluWrites m a res cv.1 cv.2 s t ∧
      ∀ k, res.getLsbD k = (x.getLsbD k && y.getLsbD k)

/-- OR, both forms (`orR`, `orI`; R202), bit by bit. -/
def Obligations.OrIsBitwise : Prop :=
  ∀ (cc : Cond) (m : AluMods) (a b : Reg) (src : AluSrc) (s : State), AluRuns cc m a s →
    let x := (aluOperands m b src s).1
    let y := (aluOperands m b src s).2
    let cv := Config.aluCV .or x y s.status.c s.status.v
    ∃ t res, exec (.alu .or cc m a b src) s = .next t ∧ AluWrites m a res cv.1 cv.2 s t ∧
      ∀ k, res.getLsbD k = (x.getLsbD k || y.getLsbD k)

/-- XOR, both forms (`xorR`, `xorI`; R203), bit by bit. -/
def Obligations.XorIsBitwise : Prop :=
  ∀ (cc : Cond) (m : AluMods) (a b : Reg) (src : AluSrc) (s : State), AluRuns cc m a s →
    let x := (aluOperands m b src s).1
    let y := (aluOperands m b src s).2
    let cv := Config.aluCV .xor x y s.status.c s.status.v
    ∃ t res, exec (.alu .xor cc m a b src) s = .next t ∧ AluWrites m a res cv.1 cv.2 s t ∧
      ∀ k, res.getLsbD k = (x.getLsbD k != y.getLsbD k)

/-- NOT, both forms (`notR`, `notI`; R204): all 32 bits of `opC` complemented. -/
def Obligations.NotComplementsOpC : Prop :=
  ∀ (cc : Cond) (m : AluMods) (a b : Reg) (src : AluSrc) (s : State), AluRuns cc m a s →
    let x := (aluOperands m b src s).1
    let y := (aluOperands m b src s).2
    let cv := Config.aluCV .not x y s.status.c s.status.v
    ∃ t res, exec (.alu .not cc m a b src) s = .next t ∧ AluWrites m a res cv.1 cv.2 s t ∧
      ∀ k, k < 32 → res.getLsbD k = !y.getLsbD k

/-- ADD, both forms (`addR`, `addI`; R205, R194): the sum modulo `2^32`, C its carry, V by the sign rule. -/
def Obligations.AddWrapsWithCarryAndOverflow : Prop :=
  ∀ (cc : Cond) (m : AluMods) (a b : Reg) (src : AluSrc) (s : State), AluRuns cc m a s →
    let x := (aluOperands m b src s).1
    let y := (aluOperands m b src s).2
    ∃ t, exec (.alu .add cc m a b src) s = .next t ∧
      AluWrites m a (x + y) (decide (2 ^ 32 ≤ x.toNat + y.toNat))
        ((x.msb == y.msb) && ((x + y).msb != x.msb)) s t

/-- ADDC, both forms (`addcR`, `addcI`; R206, R194): the old carry is added as well. -/
def Obligations.AddcAddsOldCarry : Prop :=
  ∀ (cc : Cond) (m : AluMods) (a b : Reg) (src : AluSrc) (s : State), AluRuns cc m a s →
    let x := (aluOperands m b src s).1
    let y := (aluOperands m b src s).2
    let cin : Nat := if s.status.c then 1 else 0
    let res := x + y + BitVec.ofNat 32 cin
    ∃ t, exec (.alu .addc cc m a b src) s = .next t ∧
      AluWrites m a res (decide (2 ^ 32 ≤ x.toNat + y.toNat + cin))
        ((x.msb == y.msb) && (res.msb != x.msb)) s t

/-- SUB, both forms (`subR`, `subI`; R207, R194): C is set when there is no borrow. -/
def Obligations.SubWrapsWithNoBorrowCarry : Prop :=
  ∀ (cc : Cond) (m : AluMods) (a b : Reg) (src : AluSrc) (s : State), AluRuns cc m a s →
    let x := (aluOperands m b src s).1
    let y := (aluOperands m b src s).2
    ∃ t, exec (.alu .sub cc m a b src) s = .next t ∧
      AluWrites m a (x - y) (decide (y.toNat ≤ x.toNat))
        ((x.msb != y.msb) && ((x - y).msb != x.msb)) s t

/-- SUBB, both forms (`subbR`, `subbI`; R208, R194): the borrow `1 - C` is subtracted as well. -/
def Obligations.SubbSubtractsOldBorrow : Prop :=
  ∀ (cc : Cond) (m : AluMods) (a b : Reg) (src : AluSrc) (s : State), AluRuns cc m a s →
    let x := (aluOperands m b src s).1
    let y := (aluOperands m b src s).2
    let borrow : Nat := if s.status.c then 0 else 1
    let res := x - y - BitVec.ofNat 32 borrow
    ∃ t, exec (.alu .subb cc m a b src) s = .next t ∧
      AluWrites m a res (decide (y.toNat + borrow ≤ x.toNat))
        ((x.msb != y.msb) && (res.msb != x.msb)) s t

/-- NEG, both forms (`negR`, `negI`; R209): the two's-complement negation of `opC`; C and V are free (R195). -/
def Obligations.NegNegatesOpC : Prop :=
  ∀ (cc : Cond) (m : AluMods) (a b : Reg) (src : AluSrc) (s : State), AluRuns cc m a s →
    let x := (aluOperands m b src s).1
    let y := (aluOperands m b src s).2
    let cv := Config.aluCV .neg x y s.status.c s.status.v
    ∃ t, exec (.alu .neg cc m a b src) s = .next t ∧ AluWrites m a (~~~y + 1#32) cv.1 cv.2 s t

/-- SHL, both forms (`shlR`, `shlI`; R210): bit `k` of the result is bit `k - amount` of `opB`, for every amount: an amount of
32 or more leaves 0 (D21, log entry 17). -/
def Obligations.ShlShiftsLeft : Prop :=
  ∀ (cc : Cond) (m : AluMods) (a b : Reg) (src : AluSrc) (s : State), AluRuns cc m a s →
    let x := (aluOperands m b src s).1
    let y := (aluOperands m b src s).2
    let cv := Config.aluCV .shl x y s.status.c s.status.v
    ∃ t res, exec (.alu .shl cc m a b src) s = .next t ∧ AluWrites m a res cv.1 cv.2 s t ∧
      ∀ k, k < 32 → res.getLsbD k = (decide (y.toNat ≤ k) && x.getLsbD (k - y.toNat))

/-- SHR, both forms (`shrR`, `shrI`; R211): bit `k` of the result is bit `k + amount` of `opB`, zeros from above (D21, log entry 17). -/
def Obligations.ShrShiftsRightLogically : Prop :=
  ∀ (cc : Cond) (m : AluMods) (a b : Reg) (src : AluSrc) (s : State), AluRuns cc m a s →
    let x := (aluOperands m b src s).1
    let y := (aluOperands m b src s).2
    let cv := Config.aluCV .shr x y s.status.c s.status.v
    ∃ t res, exec (.alu .shr cc m a b src) s = .next t ∧ AluWrites m a res cv.1 cv.2 s t ∧
      ∀ k, res.getLsbD k = x.getLsbD (k + y.toNat)

/-- ASHR, both forms (`ashrR`, `ashrI`; R212): likewise with copies of the sign from above (D21, log entry 17). -/
def Obligations.AshrShiftsRightWithSign : Prop :=
  ∀ (cc : Cond) (m : AluMods) (a b : Reg) (src : AluSrc) (s : State), AluRuns cc m a s →
    let x := (aluOperands m b src s).1
    let y := (aluOperands m b src s).2
    let cv := Config.aluCV .ashr x y s.status.c s.status.v
    ∃ t res, exec (.alu .ashr cc m a b src) s = .next t ∧ AluWrites m a res cv.1 cv.2 s t ∧
      ∀ k, k < 32 → res.getLsbD k = if k + y.toNat < 32 then x.getLsbD (k + y.toNat) else x.msb

/-! ### Frames -/

/-- The frame of every instruction that stores nothing (NOP, LD, LDR, LDI, POP and the ALU), where it takes no trap: every
address reads as before, and the registers keep `RegFrame`. -/
def Obligations.RegisterOnlyFrame : Prop :=
  ∀ (i : Instr) (s t : State), storeAddr s i.core = none → i.core ≠ .int → ¬ Privileged i s → exec i s = .next t →
    RegFrame i s t ∧ t.mem.map = s.mem.map ∧ ∀ x : Word, t.mem.read x = s.mem.read x

/-- The frame of ST, STR and PUSH: every address but the one stored to reads as before, and the registers keep `RegFrame`,
the pc included. -/
def Obligations.StoreFrame : Prop :=
  ∀ (i : Instr) (s t : State) (ea : Word), storeAddr s i.core = some ea → exec i s = .next t →
    RegFrame i s t ∧ t.pc = s.pc ∧ t.mem.map = s.mem.map ∧ ∀ x : Word, x ≠ ea → t.mem.read x = s.mem.read x

/-- The frame of trap entry by an instruction: an executed INT and a privileged operation in user mode change what `Trapped`
says and nothing else. -/
def Obligations.TrapFrame : Prop :=
  ∀ (i : Instr) (s t : State), exec i s = .next t →
    (i.core = .int → condHolds i.cond s.status = true → Trapped 2#32 false s t) ∧
    (Privileged i s → Trapped 3#32 false s t)

/-! ### Rules of the whole machine -/

/-- R26: `status.I` enables the interrupt; with it clear the line is not looked at; and a step changes it only by a reset,
by entering the hardware interrupt (both leave 0), or by an executed write of register code 12 in supervisor mode, so not
by a software interrupt and not by an exception (D15, D17 and D18; log entries 14, 23, 24 and 7). -/
def Obligations.InterruptMaskRule : Prop :=
  (∀ s : State, s.boundary.reset = false → s.status.i = true → s.boundary.hwint = true → CanPushTwo s →
    ∃ t, step s = .next t ∧ t.pc = 1#32 ∧ t.status.i = false) ∧
  (∀ (s : State) (b : Boundary) (rest : List Boundary), s.status.i = false → s.inputs = b :: rest →
    step s = step { s with inputs := { b with hwint := false } :: rest }) ∧
  (∀ s t : State, step s = .next t → t.status.i ≠ s.status.i →
    (s.boundary.reset = true ∧ t.status.i = false) ∨
    (s.status.i = true ∧ s.boundary.hwint = true ∧ t.status.i = false) ∨
    (QuietBoundary s ∧ ∃ w i, s.mem.read s.pc = .ok w ∧ decode w = .instr i ∧ i.core.dest = some .status ∧
      condHolds i.cond s.status = true ∧ s.status.m = false))

/-- R246: user mode is entered only by an executed write of register code 12 in supervisor mode, and left only by a reset
or through a trap; `status.I` cannot be changed by an instruction in user mode (D15 and D18; log entries 14 and 24). The
leave clause gives each entry whole: vector 3 pushes the pc after the faulting instruction by D16 (22), and the order of the
pushes is D17 (23). -/
def Obligations.ModeIsEnteredAndLeftOnlyAsStated : Prop :=
  ∀ s t : State, step s = .next t →
    (s.status.m = false → t.status.m = true →
      QuietBoundary s ∧ ∃ w i, s.mem.read s.pc = .ok w ∧ decode w = .instr i ∧ i.core.dest = some .status ∧
        condHolds i.cond s.status = true) ∧
    (s.status.m = true → t.status.m = false →
      s.boundary.reset = true ∨
      (s.status.i = true ∧ s.boundary.hwint = true ∧ Trapped 1#32 true { s with inputs := s.inputs.tail } t) ∨
      ∃ vec, (vec = 2#32 ∨ vec = 3#32) ∧
        Trapped vec false { s with pc := s.pc + 1#32, inputs := s.inputs.tail } t) ∧
    (s.status.m = true → QuietBoundary s → t.status.i = s.status.i)

/-- R29: lr is written as a destination and as the side effect of a write of pc, then with the old pc, and in no other way;
trap entry stores it and does not change it; as a source it is an ordinary register (D17 and D34; log entries 23 and 28).
Reset is R271's. -/
def Obligations.LinkRegisterRule : Prop :=
  (∀ (i : Instr) (s t : State), exec i s = .next t → t.lr ≠ s.lr →
    condHolds i.cond s.status = true ∧ (i.core.dest = some .lr ∨ (i.core.dest = some .pc ∧ t.lr = s.pc))) ∧
  (∀ (i : Instr) (s t : State), exec i s = .next t → condHolds i.cond s.status = true → i.core.dest = some .pc →
    t.lr = s.pc) ∧
  (∀ (vec : Word) (clearI : Bool) (s t : State), trapEnter vec clearI s = .next t →
    t.lr = s.lr ∧ t.mem.read (s.sp - 2#32) = .ok s.lr) ∧
  (∀ s : State, s.readReg .lr = s.lr)

/-- R25: N, Z, C and V are written only by an ALU instruction with `Sb = 1` and by a write of register code 12, when they
execute and raise no exception; every other instruction, every trap entry and every false condition leaves them (a derived rule;
D15, log entry 14). -/
def Obligations.ConditionFlagsWrittenOnlyAsStated : Prop :=
  ∀ (i : Instr) (s t : State), exec i s = .next t →
    (t.status.n, t.status.z, t.status.c, t.status.v) ≠ (s.status.n, s.status.z, s.status.c, s.status.v) →
    condHolds i.cond s.status = true ∧ ¬ Privileged i s ∧ (i.core.setsFlags = true ∨ i.core.dest = some .status)

/-- R230: the events of the vector table set pc to their addresses, and apart from them an instruction redirects control
only by an explicit write of pc (the exception's cause by D15, the sampling by D18; log entries 14 and 24). -/
def Obligations.VectorTable : Prop :=
  State.reset.pc = 0#32 ∧
  (∀ s t : State, step s = .next t → s.boundary.reset = true → t.pc = 0#32) ∧
  (∀ s t : State, step s = .next t → s.boundary.reset = false → s.status.i = true → s.boundary.hwint = true →
    t.pc = 1#32) ∧
  (∀ (i : Instr) (s t : State), exec i s = .next t → i.core = .int → condHolds i.cond s.status = true → t.pc = 2#32) ∧
  (∀ (i : Instr) (s t : State), exec i s = .next t → Privileged i s → t.pc = 3#32) ∧
  (∀ (i : Instr) (s t : State), exec i s = .next t → t.pc ≠ s.pc →
    condHolds i.cond s.status = true ∧ (i.core.dest = some .pc ∨ i.core = .int ∨ Privileged i s))

/-- R237: a hardware interrupt, a software interrupt, an exception and a reset all enter supervisor mode, as operations and
as steps or instructions, whatever the mode was, and the previous mode is lost: an entry from user mode and one from
supervisor mode leave the same state. What raises the exception is D15 (log entry 14), when the line and the reset are
looked at is D18 and the model's form of the input (24, 7). -/
def Obligations.EntryIsSupervisorMode : Prop :=
  (∀ s t : State, enterHwint s = .next t → t.status.m = false) ∧
  (∀ s t : State, enterSwint s = .next t → t.status.m = false) ∧
  (∀ s t : State, raiseException s = .next t → t.status.m = false) ∧
  (∀ s : State, s.start.status.m = false) ∧
  (∀ s t : State, step s = .next t → s.boundary.reset = true → t.status.m = false) ∧
  (∀ s t : State, step s = .next t → s.status.i = true → s.boundary.hwint = true → t.status.m = false) ∧
  (∀ (i : Instr) (s t : State), exec i s = .next t → i.core = .int → condHolds i.cond s.status = true →
    t.status.m = false) ∧
  (∀ (i : Instr) (s t : State), exec i s = .next t → Privileged i s → t.status.m = false) ∧
  (∀ (u : Bool) (s : State),
    enterHwint { s with status := { s.status with m := u } } = enterHwint s ∧
    enterSwint { s with status := { s.status with m := u } } = enterSwint s ∧
    raiseException { s with status := { s.status with m := u } } = raiseException s ∧
    State.start { s with status := { s.status with m := u } } = s.start)

/-- R245: the mode matters only to the privileged operations: an instruction that names register code 12 neither as a
destination nor as a source does in either mode what it does in the other, the mode flag apart (D15, log entry 14). -/
def Obligations.ModeMattersOnlyToStatusOperands : Prop :=
  ∀ (i : Instr) (mode : Bool) (s t : State), i.core.dest ≠ some .status → Reg.status ∉ sources i.core →
    exec i s = .next t →
    ∃ u, exec i { s with status := { s.status with m := mode } } = .next u ∧
      { u with status := { u.status with m := false } } = { t with status := { t.status with m := false } }

/-- R24, R38: status as a number is `N*32 + Z*16 + C*8 + V*4 + I*2 + M`, zero-extended; a write of it keeps the low six bits
and drops the rest (the order and the extension by D2, log entry 13). -/
def Obligations.StatusAsNumber : Prop :=
  (∀ f : Status, f.toWord.toNat =
    f.n.toNat * 32 + f.z.toNat * 16 + f.c.toNat * 8 + f.v.toNat * 4 + f.i.toNat * 2 + f.m.toNat) ∧
  (∀ f : Status, Status.ofWord f.toWord = f) ∧
  (∀ v : Word, (Status.ofWord v).toWord = v &&& 0x3F#32)

/-! ### Sequences -/

/-- Every store is seen by the very next fetch (R76; D24, log entry 27): the word that ST, STR or PUSH has just stored at pc,
and the pc or lr that a trap entry has just pushed onto its own vector, is what the next step runs if it is an instruction.
The addresses are those of D5, D8 and D9 (log entries 8, 11, 12), the order of the pushes is D17 (23), status stored as a
number is D2 (13). -/
def Obligations.StoreIsSeenByNextFetch : Prop :=
  (∀ (i j : Instr) (s t : State) (w : Word), storeAddr s i.core = some s.pc → storeData s i.core = some w →
    condHolds i.cond s.status = true → exec i s = .next t → QuietBoundary s → decode w = .instr j →
    step t = exec j { t with pc := s.pc + 1#32, inputs := s.inputs.tail }) ∧
  (∀ (vec : Word) (clearI : Bool) (s t : State) (j : Instr), trapEnter vec clearI s = .next t → QuietBoundary t →
    (s.sp - 1#32 = vec → decode s.pc = .instr j → step t = exec j { t with pc := vec + 1#32, inputs := s.inputs.tail }) ∧
    (s.sp - 2#32 = vec → decode s.lr = .instr j → step t = exec j { t with pc := vec + 1#32, inputs := s.inputs.tail }))

/-- What PUSH pushes, POP pops, and sp comes back (R170, R171), for every register but sp, wherever the stack is backed. -/
def Obligations.PopReturnsWhatPushPushed : Prop :=
  ∀ (a : Reg) (n : Fin 12) (s : State), a ≠ .sp → s.mem.backs (s.sp - 1#32).toNat = true →
    ∃ t u, exec (.push .none a) s = .next t ∧ exec (.pop .none (.r n)) t = .next u ∧
      u.gpr[n] = s.readReg a ∧ u.sp = s.sp ∧ u.pc = s.pc ∧ u.lr = s.lr ∧ u.status = s.status

/-- R242: after any trap entry, `POP lr` and `POP pc` restore lr, then sp and the saved pc; the mode and, after a hardware
interrupt, `status.I` are not restored, and the final jump sets lr to the address after itself (`q`, the pc as that POP reads
it; `p` is the first POP's). An executed INT, a privileged operation in user mode and the hardware interrupt are such
entries (D15 to D18 and D34; log entries 14, 22, 23, 24, 28). -/
def Obligations.HandlerReturnsByTwoPops : Prop :=
  (∀ (vec : Word) (clearI : Bool) (s : State) (p q : Word), CanPushTwo s →
    ∃ t u v, trapEnter vec clearI s = .next t ∧ exec (.pop .none .lr) { t with pc := p } = .next u ∧
      exec (.pop .none .pc) { u with pc := q } = .next v ∧
      u.lr = s.lr ∧ v.pc = s.pc ∧ v.sp = s.sp ∧ v.lr = q ∧ v.gpr = s.gpr ∧
      v.status = { s.status with i := s.status.i && !clearI, m := false }) ∧
  (∀ (cc : Cond) (s : State), condHolds cc s.status = true → exec (.int cc) s = trapEnter 2#32 false s) ∧
  (∀ (i : Instr) (s : State), Privileged i s → exec i s = trapEnter 3#32 false s) ∧
  (∀ s : State, s.boundary.reset = false → s.status.i = true → s.boundary.hwint = true →
    step s = trapEnter 1#32 true { s with inputs := s.inputs.tail })

/-- R141: `LDI pc, f` is a call that leaves in lr the address after itself, and `PASS pc, lr` returns to it (`q` is the pc as
the PASS reads it); D6 extends the target and D34 links (log entries 9 and 28). -/
def Obligations.CallAndReturnThroughLr : Prop :=
  ∀ (f : BitVec 16) (b : Reg) (s : State) (q : Word),
    ∃ t u, exec (.ldi .none .pc f) s = .next t ∧ t.pc = f.setWidth 32 ∧ t.lr = s.pc ∧
      exec (.passR .none ⟨false, false, false⟩ .pc b .lr) { t with pc := q } = .next u ∧
      u.pc = s.pc ∧ u.lr = q ∧ u.sp = s.sp ∧ u.gpr = s.gpr ∧ u.status = s.status ∧ u.mem = s.mem
end

