-- ==== Sys2Proof/Laws/Encoding.lean ====
section
/-! SUPPORT. Fields of words: what a field reads of a placed value, and that the code tables are inverse to one another. -/

namespace Sys2Proof

/-- A field distributes over the union of placed values. -/
@[simp] theorem field_or (lo n : Nat) (x y : Word) : field lo n (x ||| y) = field lo n x ||| field lo n y := by
  ext i hi; simp [field]

/-- A field reads the value placed in it. -/
theorem field_place_same {lo n : Nat} (h : lo + n ≤ 32) (v : BitVec n) : field lo n (place lo v) = v := by
  ext i hi
  have h1 : lo + i < 32 := by omega
  simp [field, place, h1, BitVec.getLsbD_eq_getElem, hi]

/-- A field below a placed value reads zeros. -/
theorem field_place_below {lo n lo' k : Nat} (h : lo + n ≤ lo') (v : BitVec k) : field lo n (place lo' v) = 0#n := by
  ext i hi
  have : lo + i < lo' := by omega
  simp [field, place, this]

/-- A field above a placed value reads zeros. -/
theorem field_place_above {lo n lo' k : Nat} (h : lo' + k ≤ lo) (v : BitVec k) : field lo n (place lo' v) = 0#n := by
  ext i hi
  have h1 : k ≤ lo + i - lo' := by omega
  simp [field, place, BitVec.getLsbD_of_ge v _ h1]

/-- A mask whose bits are 0 where a value is placed removes it. -/
theorem place_and_zero {lo k : Nat} {M : Word} (h : field lo k M = 0#k) (v : BitVec k) : place lo v &&& M = 0#32 := by
  ext j hj
  by_cases hlo : lo ≤ j
  · by_cases hk : j - lo < k
    · have hb := congrArg (fun x => x.getLsbD (j - lo)) h
      simp only [field, BitVec.getLsbD_extractLsb', hk, decide_true, Bool.true_and, BitVec.getLsbD_zero,
        Nat.add_sub_cancel' hlo] at hb
      rw [BitVec.getLsbD_eq_getElem hj] at hb
      simp [hb]
    · simp [place, BitVec.getLsbD_of_ge v (j - lo) (by omega)]
  · simp [place, hlo]

/-- A mask whose bits are 1 where a value is placed keeps it. -/
theorem place_and_ones {lo k : Nat} {M : Word} (h : field lo k M = BitVec.allOnes k) (v : BitVec k) :
    place lo v &&& M = place lo v := by
  ext j hj
  by_cases hlo : lo ≤ j
  · by_cases hk : j - lo < k
    · have hb := congrArg (fun x => x.getLsbD (j - lo)) h
      simp only [field, BitVec.getLsbD_extractLsb', hk, decide_true, Bool.true_and, BitVec.getLsbD_allOnes,
        Nat.add_sub_cancel' hlo] at hb
      rw [BitVec.getLsbD_eq_getElem hj] at hb
      simp [hb]
    · simp [place, BitVec.getLsbD_of_ge v (j - lo) (by omega)]
  · simp [place, hlo]

/-- A mask distributes over the union of placed values. -/
theorem or_and_mask (x y M : Word) : (x ||| y) &&& M = (x &&& M) ||| (y &&& M) := by
  ext j hj; simp [Bool.and_or_distrib_right]

/-- Masking with the ones of a field leaves that field in its place. -/
theorem and_place_allOnes (lo k : Nat) (w : Word) : w &&& place lo (BitVec.allOnes k) = place lo (field lo k w) := by
  ext i hi
  simp only [place, field, BitVec.getElem_and, BitVec.getElem_shiftLeft]
  by_cases h1 : i < lo
  · simp [h1]
  · by_cases h2 : i - lo < k
    · simp [h1, h2, show lo + (i - lo) = i by omega, BitVec.getLsbD_eq_getElem hi]
    · simp [h1, h2]

/-- Words that agree on a field agree on every field inside it. -/
theorem field_of_field_eq {lo n lo' n' : Nat} (h1 : lo ≤ lo') (h2 : lo' + n' ≤ lo + n) {u w : Word}
    (h : field lo n u = field lo n w) : field lo' n' u = field lo' n' w := by
  ext i hi
  have hb := congrArg (fun x => x.getLsbD (lo' - lo + i)) h
  simp only [field, BitVec.getLsbD_extractLsb', show lo' - lo + i < n by omega, decide_true, Bool.true_and,
    show lo + (lo' - lo + i) = lo' + i by omega] at hb
  simpa [field] using hb

/-- A bit of a word is the field of one bit. -/
theorem getLsbD_eq_field (w : Word) (k : Nat) : w.getLsbD k = (field k 1 w).getLsbD 0 := by simp [field]

@[simp] theorem Reg.ofCode_code (a : Reg) : Reg.ofCode a.code = a := by
  cases a with
  | r n => revert n; decide
  | _ => rfl

@[simp] theorem Cond.ofCode_code (cc : Cond) : Cond.ofCode cc.code = some cc := by cases cc <;> rfl

@[simp] theorem AluOp.ofCode_code (op : AluOp) : AluOp.ofCode op.code = some op := by cases op <;> rfl

/-- The ALU instruction of an operation splits into it (R101). -/
@[simp] theorem Instr.split_alu (op : AluOp) (cc : Cond) (m : AluMods) (a b : Reg) (src : AluSrc) :
    (Instr.alu op cc m a b src).split = (cc, .alu op m a b src) := by cases op <;> cases src <;> rfl

/-- An instruction whose operation is the ALU is the ALU instruction of it. -/
theorem Instr.eq_alu_of_core {i : Instr} {op : AluOp} {m : AluMods} {a b : Reg} {src : AluSrc}
    (h : i.core = .alu op m a b src) : i = .alu op i.cond m a b src := by
  cases i <;> simp_all [Instr.core, Instr.cond, Instr.split] <;>
    (obtain ⟨rfl, rfl, rfl, rfl, rfl⟩ := h; rfl)

/-- Every ALU instruction is executed by the one shared operation. -/
@[simp] theorem Machine.exec_alu (op : AluOp) (cc : Cond) (m : AluMods) (a b : Reg) (src : AluSrc) (s : Machine.State) :
    Machine.exec (.alu op cc m a b src) s = Machine.execAlu op cc m a b src s := by cases op <;> cases src <;> rfl

end Sys2Proof
end

