-- ==== Sys2Proof/Laws/State.lean ====
section
/-! SUPPORT. What each update of the state does to each field, and what a register read sees, so that no proof unfolds a
record update. -/

namespace Sys2Proof.Machine

variable (s : State) (n : Fin 12) (v : Word)

/-! ### Register reads (R30) -/

@[simp] theorem State.readReg_r : s.readReg (.r n) = s.gpr[n] := rfl
@[simp] theorem State.readReg_status : s.readReg .status = s.status.toWord := rfl
@[simp] theorem State.readReg_sp : s.readReg .sp = s.sp := rfl
@[simp] theorem State.readReg_lr : s.readReg .lr = s.lr := rfl
@[simp] theorem State.readReg_pc : s.readReg .pc = s.pc := rfl

/-! ### Register writes (R31) -/

@[simp] theorem State.writeReg_r_gpr : (s.writeReg (.r n) v).gpr = s.gpr.set n v := rfl
@[simp] theorem State.writeReg_r_status : (s.writeReg (.r n) v).status = s.status := rfl
@[simp] theorem State.writeReg_r_sp : (s.writeReg (.r n) v).sp = s.sp := rfl
@[simp] theorem State.writeReg_r_lr : (s.writeReg (.r n) v).lr = s.lr := rfl
@[simp] theorem State.writeReg_r_pc : (s.writeReg (.r n) v).pc = s.pc := rfl
@[simp] theorem State.writeReg_r_mem : (s.writeReg (.r n) v).mem = s.mem := rfl
@[simp] theorem State.writeReg_r_inputs : (s.writeReg (.r n) v).inputs = s.inputs := rfl
@[simp] theorem State.writeReg_status_gpr : (s.writeReg .status v).gpr = s.gpr := rfl
@[simp] theorem State.writeReg_status_status : (s.writeReg .status v).status = Status.ofWord v := rfl
@[simp] theorem State.writeReg_status_sp : (s.writeReg .status v).sp = s.sp := rfl
@[simp] theorem State.writeReg_status_lr : (s.writeReg .status v).lr = s.lr := rfl
@[simp] theorem State.writeReg_status_pc : (s.writeReg .status v).pc = s.pc := rfl
@[simp] theorem State.writeReg_status_mem : (s.writeReg .status v).mem = s.mem := rfl
@[simp] theorem State.writeReg_status_inputs : (s.writeReg .status v).inputs = s.inputs := rfl
@[simp] theorem State.writeReg_sp_gpr : (s.writeReg .sp v).gpr = s.gpr := rfl
@[simp] theorem State.writeReg_sp_status : (s.writeReg .sp v).status = s.status := rfl
@[simp] theorem State.writeReg_sp_sp : (s.writeReg .sp v).sp = v := rfl
@[simp] theorem State.writeReg_sp_lr : (s.writeReg .sp v).lr = s.lr := rfl
@[simp] theorem State.writeReg_sp_pc : (s.writeReg .sp v).pc = s.pc := rfl
@[simp] theorem State.writeReg_sp_mem : (s.writeReg .sp v).mem = s.mem := rfl
@[simp] theorem State.writeReg_sp_inputs : (s.writeReg .sp v).inputs = s.inputs := rfl
@[simp] theorem State.writeReg_lr_gpr : (s.writeReg .lr v).gpr = s.gpr := rfl
@[simp] theorem State.writeReg_lr_status : (s.writeReg .lr v).status = s.status := rfl
@[simp] theorem State.writeReg_lr_sp : (s.writeReg .lr v).sp = s.sp := rfl
@[simp] theorem State.writeReg_lr_lr : (s.writeReg .lr v).lr = v := rfl
@[simp] theorem State.writeReg_lr_pc : (s.writeReg .lr v).pc = s.pc := rfl
@[simp] theorem State.writeReg_lr_mem : (s.writeReg .lr v).mem = s.mem := rfl
@[simp] theorem State.writeReg_lr_inputs : (s.writeReg .lr v).inputs = s.inputs := rfl
@[simp] theorem State.writeReg_pc_gpr : (s.writeReg .pc v).gpr = s.gpr := rfl
@[simp] theorem State.writeReg_pc_status : (s.writeReg .pc v).status = s.status := rfl
@[simp] theorem State.writeReg_pc_sp : (s.writeReg .pc v).sp = s.sp := rfl
@[simp] theorem State.writeReg_pc_lr : (s.writeReg .pc v).lr = s.pc := rfl
@[simp] theorem State.writeReg_pc_pc : (s.writeReg .pc v).pc = v := rfl
@[simp] theorem State.writeReg_pc_mem : (s.writeReg .pc v).mem = s.mem := rfl
@[simp] theorem State.writeReg_pc_inputs : (s.writeReg .pc v).inputs = s.inputs := rfl

/-- A register write touches neither memory nor the inputs. -/
@[simp] theorem State.writeReg_mem (a : Reg) : (s.writeReg a v).mem = s.mem := by cases a <;> rfl

@[simp] theorem State.writeReg_inputs (a : Reg) : (s.writeReg a v).inputs = s.inputs := by cases a <;> rfl

/-- What a general register holds after a register write. -/
theorem State.writeReg_gpr_get (a : Reg) :
    (s.writeReg a v).gpr[n] = if a = .r n then v else s.gpr[n] := by
  cases a with
  | r k =>
    by_cases h : k = n
    · subst h; simp
    · have hv : k.val ≠ n.val := fun e => h (Fin.ext e)
      simp [h, hv]
  | _ => simp

/-- What status holds after a register write. -/
theorem State.writeReg_status_eq (a : Reg) :
    (s.writeReg a v).status = if a = .status then Status.ofWord v else s.status := by cases a <;> simp

/-- What sp holds after a register write. -/
theorem State.writeReg_sp_eq (a : Reg) : (s.writeReg a v).sp = if a = .sp then v else s.sp := by cases a <;> simp

/-- What lr holds after a register write: an explicit write of pc links. -/
theorem State.writeReg_lr_eq (a : Reg) :
    (s.writeReg a v).lr = if a = .lr then v else if a = .pc then s.pc else s.lr := by cases a <;> simp

/-- What pc holds after a register write. -/
theorem State.writeReg_pc_eq (a : Reg) : (s.writeReg a v).pc = if a = .pc then v else s.pc := by cases a <;> simp

/-! ### The boundary and the Start event -/

@[simp] theorem State.passBoundary_gpr : s.passBoundary.gpr = s.gpr := rfl
@[simp] theorem State.passBoundary_status : s.passBoundary.status = s.status := rfl
@[simp] theorem State.passBoundary_sp : s.passBoundary.sp = s.sp := rfl
@[simp] theorem State.passBoundary_lr : s.passBoundary.lr = s.lr := rfl
@[simp] theorem State.passBoundary_pc : s.passBoundary.pc = s.pc := rfl
@[simp] theorem State.passBoundary_mem : s.passBoundary.mem = s.mem := rfl
@[simp] theorem State.passBoundary_inputs : s.passBoundary.inputs = s.inputs.tail := rfl
@[simp] theorem State.start_gpr : s.start.gpr = Vector.replicate 12 0#32 := rfl
@[simp] theorem State.start_status : s.start.status = ⟨false, false, false, false, false, false⟩ := rfl
@[simp] theorem State.start_sp : s.start.sp = 0#32 := rfl
@[simp] theorem State.start_lr : s.start.lr = 0#32 := rfl
@[simp] theorem State.start_pc : s.start.pc = 0#32 := rfl
@[simp] theorem State.start_mem : s.start.mem = s.mem := rfl
@[simp] theorem State.start_inputs : s.start.inputs = s.inputs := rfl

/-! ### A word placed for the next fetch -/

@[simp] theorem State.withFetchWord_gpr (k w : Nat) : (s.withFetchWord k w).gpr = s.gpr := rfl
@[simp] theorem State.withFetchWord_status (k w : Nat) : (s.withFetchWord k w).status = s.status := rfl
@[simp] theorem State.withFetchWord_sp (k w : Nat) : (s.withFetchWord k w).sp = s.sp := rfl
@[simp] theorem State.withFetchWord_lr (k w : Nat) : (s.withFetchWord k w).lr = s.lr := rfl
@[simp] theorem State.withFetchWord_pc (k w : Nat) : (s.withFetchWord k w).pc = s.pc := rfl

@[simp] theorem State.withFetchWord_mem (k w : Nat) :
    (s.withFetchWord k w).mem = s.mem.placeWord s.pc (BitVec.ofNat 32 (w % 2 ^ k)) := rfl

@[simp] theorem State.withFetchWord_inputs (k w : Nat) : (s.withFetchWord k w).inputs = quietNext s.inputs := rfl

end Sys2Proof.Machine
end

