-- ==== Sys2Proof/Laws/Memory.lean ====
section
/-! SUPPORT. The laws of memory: a read after a write (R64, R65), and that a write keeps the canonical form. -/

namespace Sys2Proof.Machine

/-! ### Lists of cells -/

@[simp] theorem findCell_putCell_same (a : Nat) (v : Word) (l : List (Nat × Word)) :
    findCell a (putCell a v l) = some v := by
  induction l with
  | nil => simp [putCell, findCell]
  | cons p rest ih =>
    obtain ⟨b, w⟩ := p
    simp only [putCell]
    split
    · simp [findCell]
    · split <;> simp_all [findCell]

theorem findCell_putCell_other {a b : Nat} (h : b ≠ a) (v : Word) (l : List (Nat × Word)) :
    findCell b (putCell a v l) = findCell b l := by
  induction l with
  | nil => simp [putCell, findCell, h]
  | cons p rest ih =>
    obtain ⟨c, w⟩ := p
    simp only [putCell]
    split
    · simp [findCell, h]
    · split
      · subst_vars; simp [findCell, h]
      · simp [findCell, ih]

/-- A weaker lower bound is still one. -/
theorem risingFrom_mono {lo hi : Nat} (h : lo ≤ hi) {l : List (Nat × Word)} (hr : risingFrom hi l = true) :
    risingFrom lo l = true := by
  cases l with
  | nil => rfl
  | cons p rest =>
    simp only [risingFrom, Bool.and_eq_true, decide_eq_true_eq] at hr ⊢
    exact ⟨h.trans hr.1, hr.2⟩

theorem risingFrom_putCell {lo a : Nat} (h : lo ≤ a) (v : Word) {l : List (Nat × Word)}
    (hr : risingFrom lo l = true) : risingFrom lo (putCell a v l) = true := by
  induction l generalizing lo with
  | nil => simp [putCell, risingFrom, h]
  | cons p rest ih =>
    obtain ⟨b, w⟩ := p
    simp only [risingFrom, Bool.and_eq_true, decide_eq_true_eq] at hr
    simp only [putCell]
    split
    · simp only [risingFrom, Bool.and_eq_true, decide_eq_true_eq]
      exact ⟨h, by omega, hr.2⟩
    · split
      · subst_vars
        simp only [risingFrom, Bool.and_eq_true, decide_eq_true_eq]
        exact hr
      · simp only [risingFrom, Bool.and_eq_true, decide_eq_true_eq]
        exact ⟨hr.1, ih (by omega) hr.2⟩

/-- Whatever holds of every old cell and of the new one holds of every cell afterwards. -/
theorem all_putCell {P : Nat × Word → Bool} {a : Nat} {v : Word} {l : List (Nat × Word)} (hp : P (a, v) = true)
    (hl : l.all P = true) : (putCell a v l).all P = true := by
  induction l with
  | nil => simp [putCell, hp]
  | cons p rest ih =>
    obtain ⟨b, w⟩ := p
    simp only [List.all_cons, Bool.and_eq_true] at hl
    simp only [putCell]
    split
    · simp [hp, hl]
    · split <;> simp [hp, hl, ih hl.2]

/-! ### Cells and addresses -/

/-- With 32 address bits every word is the number of a cell of its own. -/
@[simp] theorem cellIndex_eq (a : Word) : cellIndex a = a.toNat := Nat.mod_eq_of_lt a.isLt

/-- With 32-bit cells a cell keeps all of a word. -/
@[simp] theorem cellValue_eq (v : Word) : cellValue v = v := by
  rw [cellValue, Nat.mod_eq_of_lt (show v.toNat < 2 ^ params.cellBits from v.isLt), BitVec.ofNat_toNat,
    BitVec.setWidth_eq]

/-- What the canonical form asks of one cell: that `MEM_MAP` backs it, and an address of 32 bits. -/
theorem Memory.wf_cell_iff (m : Memory) (p : Nat × Word) :
    (decide (p.1 < 2 ^ params.addrBits) && decide (p.2.toNat < 2 ^ params.cellBits) && m.backs p.1) = true ↔
      p.1 < 4294967296 ∧ m.backs p.1 = true := by
  simp only [Bool.and_eq_true, decide_eq_true_eq]
  exact ⟨fun h => ⟨h.1.1, h.2⟩, fun h => ⟨⟨h.1, p.2.isLt⟩, h.2⟩⟩

/-! ### Reads and writes of a cell -/

/-- A write succeeds exactly where memory is backed, and says what memory is then. -/
theorem Memory.write_eq_ok {m m' : Memory} {a v : Word} :
    m.write a v = .ok m' ↔ m.backs a.toNat = true ∧ m' = { m with cells := putCell a.toNat v m.cells } := by
  simp only [Memory.write, cellIndex_eq, cellValue_eq]
  by_cases hb : m.backs a.toNat = true
  · rw [if_pos hb, Except.ok.injEq]
    exact ⟨fun h => ⟨hb, h.symm⟩, fun h => h.2.symm⟩
  · rw [if_neg hb]
    exact ⟨fun h => (nomatch h), fun h => absurd h.1 hb⟩

/-- A read succeeds exactly where a backed cell holds a value. -/
theorem Memory.read_eq_ok {m : Memory} {a v : Word} :
    m.read a = .ok v ↔ m.backs a.toNat = true ∧ findCell a.toNat m.cells = some v := by
  simp only [Memory.read, cellIndex_eq]
  split
  · cases h : findCell a.toNat m.cells <;> simp_all
  · simp_all

theorem Memory.write_map {m m' : Memory} {a v : Word} (h : m.write a v = .ok m') : m'.map = m.map := by
  rw [(Memory.write_eq_ok.mp h).2]

theorem Memory.write_backs {m m' : Memory} {a v : Word} (h : m.write a v = .ok m') (x : Nat) :
    m'.backs x = m.backs x := by
  unfold Memory.backs
  rw [Memory.write_map h]

theorem Memory.read_write_same {m m' : Memory} {a v : Word} (h : m.write a v = .ok m') : m'.read a = .ok v := by
  obtain ⟨hb, rfl⟩ := Memory.write_eq_ok.mp h
  exact Memory.read_eq_ok.mpr ⟨hb, by simp⟩

theorem Memory.read_write_other {m m' : Memory} {a v x : Word} (h : m.write a v = .ok m') (hx : x ≠ a) :
    m'.read x = m.read x := by
  obtain ⟨hb, rfl⟩ := Memory.write_eq_ok.mp h
  have hn : x.toNat ≠ a.toNat := fun e => hx (BitVec.eq_of_toNat_eq e)
  simp only [Memory.read, cellIndex_eq, findCell_putCell_other hn]
  rfl

theorem Memory.wf_write {m m' : Memory} {a v : Word} (h : m.write a v = .ok m') (hw : m.wf = true) :
    m'.wf = true := by
  obtain ⟨hb, rfl⟩ := Memory.write_eq_ok.mp h
  simp only [Memory.wf, Bool.and_eq_true] at hw ⊢
  refine ⟨risingFrom_putCell (Nat.zero_le _) v hw.1, all_putCell ?_ hw.2⟩
  exact (Memory.wf_cell_iff _ _).mpr ⟨a.isLt, hb⟩

theorem Memory.placeWord_map (m : Memory) (a v : Word) :
    (m.placeWord a v).map = if m.backs a.toNat then m.map else ⟨a.toNat, 1⟩ :: m.map := by
  simp [Memory.placeWord]

theorem Memory.placeWord_cells (m : Memory) (a v : Word) :
    (m.placeWord a v).cells = putCell a.toNat v m.cells := by simp [Memory.placeWord]

/-- A placed word keeps the canonical form as well: the cell it adds is backed afterwards. -/
theorem Memory.wf_placeWord {m : Memory} (a v : Word) (hw : m.wf = true) : (m.placeWord a v).wf = true := by
  have hmap := Memory.placeWord_map m a v
  have hbacks : ∀ x, m.backs x = true → (m.placeWord a v).backs x = true := by
    intro x hx
    unfold Memory.backs at hx ⊢
    rw [hmap]
    split
    · exact hx
    · rw [List.any_cons, hx, Bool.or_true]
  have hnew : (m.placeWord a v).backs a.toNat = true := by
    by_cases hb : m.backs a.toNat = true
    · exact hbacks _ hb
    · unfold Memory.backs
      rw [hmap, if_neg hb]
      simp
  simp only [Memory.wf, Bool.and_eq_true] at hw ⊢
  rw [Memory.placeWord_cells]
  refine ⟨risingFrom_putCell (Nat.zero_le _) v hw.1, all_putCell ((Memory.wf_cell_iff _ _).mpr ⟨a.isLt, hnew⟩) ?_⟩
  rw [List.all_eq_true] at hw ⊢
  intro p hp
  obtain ⟨h1, h2⟩ := (Memory.wf_cell_iff _ _).mp (hw.2 p hp)
  exact (Memory.wf_cell_iff _ _).mpr ⟨h1, hbacks _ h2⟩

end Sys2Proof.Machine
end

