-- ==== Sys2Proof/Laws/Ops.lean ====
section
/-! SUPPORT. One lemma per shared operation that says everything it can do when it answers a next state, and the lemmas
that say where it does; cited in place of unfolding the operation. -/

namespace Sys2Proof.Machine

/-! ### Loads and stores -/

theorem load_of_read {a : Word} {s : State} {v : Word} (h : s.mem.read a = .ok v) (k : Word → Result) :
    load a s k = k v := by simp [load, h]

theorem load_eq_next {a : Word} {s t : State} {k : Word → Result} :
    load a s k = .next t ↔ ∃ v, s.mem.read a = .ok v ∧ k v = .next t := by
  unfold load
  cases h : s.mem.read a <;> simp

theorem store_eq_next {a v : Word} {s t : State} {k : State → Result} :
    store a v s k = .next t ↔ ∃ m, s.mem.write a v = .ok m ∧ k { s with mem := m } = .next t := by
  unfold store
  cases h : s.mem.write a v <;> simp

/-- A store at a backed address goes on. -/
theorem store_of_backs {a v : Word} {s : State} (h : s.mem.backs a.toNat = true) (k : State → Result) :
    store a v s k = k { s with mem := { s.mem with cells := putCell a.toNat v s.mem.cells } } := by
  simp [store, Memory.write, h]

/-- A store where no memory is stops. -/
theorem store_of_not_backs {a v : Word} {s : State} (h : s.mem.backs a.toNat = false) (k : State → Result) :
    store a v s k = .fault (.noMemory a) := by
  rw [store, Memory.write, cellIndex_eq, if_neg (by rw [h]; decide)]

/-! ### Pushes and trap entry -/

theorem push_eq_next {v : Word} {s t : State} {k : State → Result} :
    push v s k = .next t ↔
      ∃ m, s.mem.write (s.sp - 1#32) v = .ok m ∧ k { s with sp := s.sp - 1#32, mem := m } = .next t := by
  simp [push, store_eq_next]

/-- Everything a trap entry can do: two writes, then the status, the mode and the pc (R236). -/
theorem trapEnter_eq_next {vec : Word} {clearI : Bool} {s t : State} :
    trapEnter vec clearI s = .next t ↔
      ∃ m1 m2, s.mem.write (s.sp - 1#32) s.pc = .ok m1 ∧ m1.write (s.sp - 1#32 - 1#32) s.lr = .ok m2 ∧
        t = { s with
          sp := s.sp - 1#32 - 1#32
          mem := m2
          status := { s.status with i := s.status.i && !clearI, m := false }
          pc := vec } := by
  simp only [trapEnter, push_eq_next, Host.Outcome.next.injEq]
  constructor
  · rintro ⟨m1, h1, m2, h2, rfl⟩
    exact ⟨m1, m2, h1, h2, rfl⟩
  · rintro ⟨m1, m2, h1, h2, rfl⟩
    exact ⟨m1, h1, m2, h2, rfl⟩

/-! ### Conditions and privilege -/

theorem whenHolds_true {cc : Cond} {s : State} (h : condHolds cc s.status = true) (k : Result) :
    whenHolds cc s k = k := by simp [whenHolds, h]

theorem whenHolds_false {cc : Cond} {s : State} (h : condHolds cc s.status = false) (k : Result) :
    whenHolds cc s k = .next s := by simp [whenHolds, h]

/-- A conditional instruction either is not executed and leaves the state alone, or executes. -/
theorem whenHolds_eq_next {cc : Cond} {s t : State} {k : Result} :
    whenHolds cc s k = .next t ↔
      (condHolds cc s.status = false ∧ t = s) ∨ (condHolds cc s.status = true ∧ k = .next t) := by
  cases h : condHolds cc s.status <;> simp [whenHolds, h, eq_comm]

/-- The privilege check of R234's default: the destination is status and the mode is user mode. -/
theorem priv_iff {op : CoreOp} {s : State} :
    params.priv op s = true ↔ op.dest = some .status ∧ s.status.m = true := by simp [params, privDefault]

theorem guardPriv_of_priv {op : CoreOp} {s : State} (h : op.dest = some .status ∧ s.status.m = true) (k : Result) :
    guardPriv op s k = raiseException s := if_pos (priv_iff.mpr h)

theorem guardPriv_of_not {op : CoreOp} {s : State} (h : ¬ (op.dest = some .status ∧ s.status.m = true)) (k : Result) :
    guardPriv op s k = k := if_neg (mt priv_iff.mp h)

/-- Where the condition holds and the operation is not privileged, an instruction has its own effect. -/
theorem executeOp_of {cc : Cond} {op : CoreOp} {s : State} (hc : condHolds cc s.status = true)
    (hp : ¬ (op.dest = some .status ∧ s.status.m = true)) (k : Result) : executeOp cc op s k = k := by
  rw [executeOp, whenHolds_true hc, guardPriv_of_not hp]

/-- A privileged operation has none: it raises the exception. -/
theorem executeOp_of_priv {cc : Cond} {op : CoreOp} {s : State} (hc : condHolds cc s.status = true)
    (hp : op.dest = some .status ∧ s.status.m = true) (k : Result) : executeOp cc op s k = raiseException s := by
  rw [executeOp, whenHolds_true hc, guardPriv_of_priv hp]

/-- Everything an instruction can do before its own effect: it is not executed, it raises the exception, or it goes on. -/
theorem executeOp_eq_next {cc : Cond} {op : CoreOp} {s t : State} {k : Result} :
    executeOp cc op s k = .next t ↔
      (condHolds cc s.status = false ∧ t = s) ∨
      (condHolds cc s.status = true ∧ (op.dest = some .status ∧ s.status.m = true) ∧ raiseException s = .next t) ∨
      (condHolds cc s.status = true ∧ ¬ (op.dest = some .status ∧ s.status.m = true) ∧ k = .next t) := by
  rw [executeOp, whenHolds_eq_next]
  by_cases hp : op.dest = some .status ∧ s.status.m = true
  · rw [guardPriv_of_priv hp]; tauto
  · rw [guardPriv_of_not hp]; tauto

/-- Register A is the ALU's destination unless `Lnb = 1` (R192). -/
theorem alu_dest_eq_some {op : AluOp} {m : AluMods} {a b r : Reg} {src : AluSrc} :
    (CoreOp.alu op m a b src).dest = some r ↔ m.loadn = false ∧ a = r := by
  cases h : m.loadn <;> simp [CoreOp.dest, h]

/-- Everything an ALU instruction can do: nothing, the exception, or its writes (R190). -/
theorem execAlu_eq_next {op : AluOp} {cc : Cond} {m : AluMods} {a b : Reg} {src : AluSrc} {s t : State} :
    execAlu op cc m a b src s = .next t ↔
      (condHolds cc s.status = false ∧ t = s) ∨
      (condHolds cc s.status = true ∧ (m.loadn = false ∧ a = .status) ∧ s.status.m = true ∧
        raiseException s = .next t) ∨
      (condHolds cc s.status = true ∧
        (m.loadn = false → ¬ (a = .status ∧ s.status.m = true) ∧ (m.set && a == .status) = false) ∧
        t = aluWrite op m a (operandB m b src s) (operandC m b src s) s) := by
  rw [execAlu, executeOp_eq_next, alu_dest_eq_some]
  cases hl : m.loadn <;> cases hd : (m.set && a == .status) <;>
    simp only [hd, Bool.not_true, Bool.not_false, Bool.true_and, Bool.false_and, Bool.false_eq_true, if_false, if_true,
      Host.Outcome.next.injEq, reduceCtorEq, @eq_comm _ _ t] <;> tauto

/-! ### Shifts -/

/-- SHL in terms of the bit vector's own shift, for every amount (R210). -/
theorem shiftLeft_eq (x : Word) (k : Nat) : shiftLeft x k = x <<< k := by
  unfold shiftLeft
  split
  · apply BitVec.eq_of_toNat_eq; simp [Nat.shiftLeft_eq]
  · rw [BitVec.shiftLeft_eq_zero (by omega)]

/-- SHR likewise (R211). -/
theorem shiftRight_eq (x : Word) (k : Nat) : shiftRight x k = x >>> k := by
  unfold shiftRight
  split
  · apply BitVec.eq_of_toNat_eq
    have h1 : x.toNat / 2 ^ k ≤ x.toNat := Nat.div_le_self _ _
    have := x.isLt
    rw [BitVec.toNat_ofNat, BitVec.toNat_ushiftRight, Nat.shiftRight_eq_div_pow, Nat.mod_eq_of_lt (by omega)]
  · rw [BitVec.ushiftRight_eq_zero (by omega)]

/-- ASHR likewise (R212). -/
theorem shiftRightArith_eq (x : Word) (k : Nat) : shiftRightArith x k = x.sshiftRight k := by
  unfold shiftRightArith
  split
  · rw [BitVec.sshiftRight, Int.shiftRight_eq_div_pow]; norm_cast
  · ext i hi
    have h2 : ¬ (k + i < 32) := by omega
    rw [BitVec.getElem_sshiftRight]
    simp only [h2, dite_false]
    cases h : x.msb
    · simp
    · have : ∀ j : Fin 32, (0xFFFFFFFF#32).getLsbD j = true := by decide
      simpa [BitVec.getLsbD_eq_getElem hi] using this ⟨i, hi⟩

end Sys2Proof.Machine
end

