-- ==== Sys2Proof/Laws/Exec.lean ====
section
/-! SUPPORT. What one step and one instruction can do, said once: every way a step or an `exec` answers a next state, and
what the writes of a register, of a trap entry and of the ALU amount to in the terms of `Safety.lean`. -/

namespace Sys2Proof.Machine

open Sys2Proof.Safety

/-! ### One write of a register, one trap entry -/

/-- A register write is what R31 says, field by field. -/
theorem writeReg_writesDest (a : Reg) (v : Word) (s : State) : WritesDest a v s (s.writeReg a v) :=
  ⟨fun n => State.writeReg_gpr_get s n v a, State.writeReg_status_eq s v a, State.writeReg_sp_eq s v a,
    State.writeReg_lr_eq s v a, State.writeReg_pc_eq s v a, State.writeReg_mem s v a, State.writeReg_inputs s v a⟩

theorem sub_one_sub_one (x : Word) : x - 1#32 - 1#32 = x - 2#32 := by bv_omega

theorem sub_one_ne_sub_two (x : Word) : x - 1#32 ≠ x - 2#32 := by bv_omega

/-- A write at a backed address succeeds. -/
theorem exists_write_of_backs {m : Memory} {a v : Word} (h : m.backs a.toNat = true) : ∃ m', m.write a v = .ok m' :=
  ⟨_, Memory.write_eq_ok.mpr ⟨h, rfl⟩⟩

/-- A write of one cell is what R65 says. -/
theorem write_storesCell {s t : State} {ea v : Word} (h : s.mem.write ea v = .ok t.mem) : StoresCell ea v s t :=
  ⟨Memory.write_map h, Memory.read_write_same h, fun _ hx => Memory.read_write_other h hx⟩

/-- A trap entry that answers a next state is what R236 says. -/
theorem trapEnter_trapped {vec : Word} {clearI : Bool} {s t : State} (h : trapEnter vec clearI s = .next t) :
    Trapped vec clearI s t := by
  obtain ⟨m1, m2, h1, h2, rfl⟩ := trapEnter_eq_next.mp h
  rw [sub_one_sub_one] at h2
  refine ⟨sub_one_sub_one _, ?_, Memory.read_write_same h2, fun x hx1 hx2 => ?_, ?_, rfl, rfl, rfl, rfl, rfl⟩
  · exact (Memory.read_write_other h2 (sub_one_ne_sub_two _)).trans (Memory.read_write_same h1)
  · exact (Memory.read_write_other h2 hx2).trans (Memory.read_write_other h1 hx1)
  · exact (Memory.write_map h2).trans (Memory.write_map h1)

/-- A trap entry answers a next state where both cells it pushes to are backed. -/
theorem exists_trapEnter {vec : Word} {clearI : Bool} {s : State} (h : CanPushTwo s) :
    ∃ t, trapEnter vec clearI s = .next t := by
  obtain ⟨h1, h2⟩ := h
  obtain ⟨m1, hm1⟩ := exists_write_of_backs (v := s.pc) h1
  rw [← sub_one_sub_one] at h2
  obtain ⟨m2, hm2⟩ := exists_write_of_backs (m := m1) (v := s.lr) (by rw [Memory.write_backs hm1]; exact h2)
  exact ⟨_, trapEnter_eq_next.mpr ⟨m1, m2, hm1, hm2, rfl⟩⟩

/-- A trap entry keeps memory canonical. -/
theorem trapEnter_wf {vec : Word} {clearI : Bool} {s t : State} (h : trapEnter vec clearI s = .next t)
    (hw : s.mem.wf = true) : t.mem.wf = true := by
  obtain ⟨m1, m2, h1, h2, rfl⟩ := trapEnter_eq_next.mp h
  exact Memory.wf_write h2 (Memory.wf_write h1 hw)

/-! ### The ALU -/

@[simp] theorem aluWrite_mem (op : AluOp) (m : AluMods) (a : Reg) (x y : Word) (s : State) :
    (aluWrite op m a x y s).mem = s.mem := by
  unfold aluWrite; cases m.loadn <;> cases m.set <;> simp

@[simp] theorem aluWrite_inputs (op : AluOp) (m : AluMods) (a : Reg) (x y : Word) (s : State) :
    (aluWrite op m a x y s).inputs = s.inputs := by
  unfold aluWrite; cases m.loadn <;> cases m.set <;> simp

/-- Where an ALU instruction runs, it answers its writes on the operands of R191. -/
theorem exec_alu_of_runs {op : AluOp} {cc : Cond} {m : AluMods} {a b : Reg} {src : AluSrc} {s : State}
    (h : AluRuns cc m a s) : exec (.alu op cc m a b src) s =
      .next (aluWrite op m a (aluOperands m b src s).1 (aluOperands m b src s).2 s) := by
  obtain ⟨h1, h2, h3⟩ := h
  rw [exec_alu, execAlu_eq_next]
  refine .inr (.inr ⟨h1, fun hl => ⟨h2 hl, ?_⟩, ?_⟩)
  · have := h3 hl; simp; tauto
  · cases src <;> cases hr : m.rev <;> simp [operandB, operandC, aluOperands, hr] <;> rfl

/-- What the ALU's writes amount to (R190, R192, R193). -/
theorem aluWrite_writes {op : AluOp} {m : AluMods} {a : Reg} {x y res : Word} {c v : Bool} {s : State}
    (hr : aluResult op x y s.status.c = res)
    (hc : aluCarry op x y s.status = c) (hv : aluOverflow op x y s.status = v) :
    AluWrites m a res c v s (aluWrite op m a x y s) := by
  subst hr hc hv
  unfold aluWrite AluWrites aluFlags
  cases hl : m.loadn <;> cases hs : m.set
  · simp only [Bool.false_eq_true, if_false, State.writeReg_mem, State.writeReg_inputs, true_and]
    exact ⟨fun n => State.writeReg_gpr_get s n _ a, State.writeReg_status_eq s _ a, State.writeReg_sp_eq s _ a,
      State.writeReg_lr_eq s _ a, State.writeReg_pc_eq s _ a, trivial⟩
  · simp only [Bool.false_eq_true, if_false, if_true, State.writeReg_mem, State.writeReg_inputs, true_and]
    exact ⟨fun n => State.writeReg_gpr_get s n _ a, rfl, State.writeReg_sp_eq s _ a,
      State.writeReg_lr_eq s _ a, State.writeReg_pc_eq s _ a, trivial⟩
  · simp
  · simp; rfl

/-! ### One instruction -/

/-- Every way an instruction answers a next state: not executed; the exception; the software interrupt; NOP; one register
written (LD, LDR, LDI); POP; the ALU; one cell written (ST, STR); PUSH. -/
inductive ExecCase (i : Instr) (s t : State) : Prop
  | skip (hc : condHolds i.cond s.status = false) (ht : t = s)
  | priv (hp : Privileged i s) (h : raiseException s = .next t)
  | int (hc : condHolds i.cond s.status = true) (hi : i.core = .int) (h : enterSwint s = .next t)
  | nop (hi : i.core = .nop) (ht : t = s)
  | dest (hc : condHolds i.cond s.status = true) (a : Reg) (v : Word) (hd : i.core.dest = some a)
      (hf : i.core.setsFlags = false) (hs : storeAddr s i.core = none) (hn : ∀ a, i.core ≠ .pop a)
      (hnp : ¬ (a = .status ∧ s.status.m = true)) (hi : i.core ≠ .int) (hpu : ∀ a, i.core ≠ .push a)
      (ht : t = s.writeReg a v)
  | pop (hc : condHolds i.cond s.status = true) (a : Reg) (v : Word) (hi : i.core = .pop a) (ha : a ≠ .sp)
      (hr : s.mem.read s.sp = .ok v) (hnp : ¬ (a = .status ∧ s.status.m = true))
      (ht : t = State.writeReg { s with sp := s.sp + 1#32 } a v)
  | alu (hc : condHolds i.cond s.status = true) (op : AluOp) (m : AluMods) (a b : Reg) (src : AluSrc)
      (hi : i.core = .alu op m a b src)
      (hnp : m.loadn = false → ¬ (a = .status ∧ s.status.m = true) ∧ (m.set && a == .status) = false)
      (ht : t = aluWrite op m a (operandB m b src s) (operandC m b src s) s)
  | store (hc : condHolds i.cond s.status = true) (ea v : Word) (m : Memory) (hs : storeAddr s i.core = some ea)
      (hd : storeData s i.core = some v) (hp : ∀ a, i.core ≠ .push a) (hw : s.mem.write ea v = .ok m) (ht : t = { s with mem := m })
  | push (hc : condHolds i.cond s.status = true) (a : Reg) (hi : i.core = .push a) (ha : a ≠ .sp) (m : Memory)
      (hw : s.mem.write (s.sp - 1#32) (s.readReg a) = .ok m) (ht : t = { s with sp := s.sp - 1#32, mem := m })

/-- The inversion for the ALU instruction. -/
theorem exec_cases_alu {op : AluOp} {cc : Cond} {m : AluMods} {a b : Reg} {src : AluSrc} {s t : State}
    (h : exec (.alu op cc m a b src) s = .next t) :
    ExecCase (.alu op cc m a b src) s t := by
  have hc : (Instr.alu op cc m a b src).cond = cc := by simp [Instr.cond]
  have hk : (Instr.alu op cc m a b src).core = .alu op m a b src := by simp [Instr.core]
  rw [exec_alu, execAlu_eq_next] at h
  rcases h with ⟨h1, h2⟩ | ⟨h1, h2, h3, h4⟩ | ⟨h1, h2, h3⟩
  · exact .skip (by rw [hc]; exact h1) h2
  · exact .priv ⟨by rw [hc]; exact h1, by rw [hk]; exact alu_dest_eq_some.mpr h2, h3⟩ h4
  · exact .alu (by rw [hc]; exact h1) op m a b src hk h2 h3

/-- The inversion of `exec`: cite it in place of unfolding a meaning. -/
theorem exec_cases {i : Instr} {s t : State} (h : exec i s = .next t) : ExecCase i s t := by
  cases i with
  | nop cc =>
    rcases executeOp_eq_next.mp h with ⟨h1, h2⟩ | ⟨h1, h2, h3⟩ | ⟨h1, h2, h3⟩
    · exact .skip h1 h2
    · exact .priv ⟨h1, h2⟩ h3
    · exact .nop rfl (Host.Outcome.next.inj h3).symm
  | ld cc a addr =>
    rcases executeOp_eq_next.mp h with ⟨h1, h2⟩ | ⟨h1, h2, h3⟩ | ⟨h1, h2, h3⟩
    · exact .skip h1 h2
    · exact .priv ⟨h1, h2⟩ h3
    · obtain ⟨v, hv, h4⟩ := load_eq_next.mp h3
      exact .dest h1 a v rfl rfl rfl nofun (fun e => h2 ⟨congrArg some e.1, e.2⟩) nofun nofun
        (Host.Outcome.next.inj h4).symm
  | ldr cc a b off =>
    rcases executeOp_eq_next.mp h with ⟨h1, h2⟩ | ⟨h1, h2, h3⟩ | ⟨h1, h2, h3⟩
    · exact .skip h1 h2
    · exact .priv ⟨h1, h2⟩ h3
    · obtain ⟨v, hv, h4⟩ := load_eq_next.mp h3
      exact .dest h1 a v rfl rfl rfl nofun (fun e => h2 ⟨congrArg some e.1, e.2⟩) nofun nofun
        (Host.Outcome.next.inj h4).symm
  | ldi cc a imm =>
    rcases executeOp_eq_next.mp h with ⟨h1, h2⟩ | ⟨h1, h2, h3⟩ | ⟨h1, h2, h3⟩
    · exact .skip h1 h2
    · exact .priv ⟨h1, h2⟩ h3
    · exact .dest h1 a _ rfl rfl rfl nofun (fun e => h2 ⟨congrArg some e.1, e.2⟩) nofun nofun
        (Host.Outcome.next.inj h3).symm
  | st cc a addr =>
    rcases executeOp_eq_next.mp h with ⟨h1, h2⟩ | ⟨h1, h2, h3⟩ | ⟨h1, h2, h3⟩
    · exact .skip h1 h2
    · exact .priv ⟨h1, h2⟩ h3
    · obtain ⟨m, hm, h4⟩ := store_eq_next.mp h3
      exact .store h1 _ _ m rfl rfl nofun hm (Host.Outcome.next.inj h4).symm
  | str cc a b off =>
    rcases executeOp_eq_next.mp h with ⟨h1, h2⟩ | ⟨h1, h2, h3⟩ | ⟨h1, h2, h3⟩
    · exact .skip h1 h2
    · exact .priv ⟨h1, h2⟩ h3
    · obtain ⟨m, hm, h4⟩ := store_eq_next.mp h3
      exact .store h1 _ _ m rfl rfl nofun hm (Host.Outcome.next.inj h4).symm
  | push cc a =>
    rcases executeOp_eq_next.mp h with ⟨h1, h2⟩ | ⟨h1, h2, h3⟩ | ⟨h1, h2, h3⟩
    · exact .skip h1 h2
    · exact .priv ⟨h1, h2⟩ h3
    · by_cases ha : a = .sp
      · simp [ha] at h3
      · rw [if_neg ha, push_eq_next] at h3
        obtain ⟨m, hm, h4⟩ := h3
        exact .push h1 a rfl ha m hm (Host.Outcome.next.inj h4).symm
  | pop cc a =>
    rcases executeOp_eq_next.mp h with ⟨h1, h2⟩ | ⟨h1, h2, h3⟩ | ⟨h1, h2, h3⟩
    · exact .skip h1 h2
    · exact .priv ⟨h1, h2⟩ h3
    · by_cases ha : a = .sp
      · simp [ha] at h3
      · rw [if_neg ha, load_eq_next] at h3
        obtain ⟨v, hv, h4⟩ := h3
        exact .pop h1 a v rfl ha hv (fun e => h2 ⟨congrArg some e.1, e.2⟩) (Host.Outcome.next.inj h4).symm
  | int cc =>
    rcases executeOp_eq_next.mp h with ⟨h1, h2⟩ | ⟨h1, h2, h3⟩ | ⟨h1, h2, h3⟩
    · exact .skip h1 h2
    · exact .priv ⟨h1, h2⟩ h3
    · exact .int h1 rfl h3
  | passR cc m a b c => exact exec_cases_alu (op := .pass) (src := .reg c) h
  | passI cc m a b c => exact exec_cases_alu (op := .pass) (src := .imm c) h
  | andR cc m a b c => exact exec_cases_alu (op := .and) (src := .reg c) h
  | andI cc m a b c => exact exec_cases_alu (op := .and) (src := .imm c) h
  | orR cc m a b c => exact exec_cases_alu (op := .or) (src := .reg c) h
  | orI cc m a b c => exact exec_cases_alu (op := .or) (src := .imm c) h
  | xorR cc m a b c => exact exec_cases_alu (op := .xor) (src := .reg c) h
  | xorI cc m a b c => exact exec_cases_alu (op := .xor) (src := .imm c) h
  | notR cc m a b c => exact exec_cases_alu (op := .not) (src := .reg c) h
  | notI cc m a b c => exact exec_cases_alu (op := .not) (src := .imm c) h
  | addR cc m a b c => exact exec_cases_alu (op := .add) (src := .reg c) h
  | addI cc m a b c => exact exec_cases_alu (op := .add) (src := .imm c) h
  | addcR cc m a b c => exact exec_cases_alu (op := .addc) (src := .reg c) h
  | addcI cc m a b c => exact exec_cases_alu (op := .addc) (src := .imm c) h
  | subR cc m a b c => exact exec_cases_alu (op := .sub) (src := .reg c) h
  | subI cc m a b c => exact exec_cases_alu (op := .sub) (src := .imm c) h
  | subbR cc m a b c => exact exec_cases_alu (op := .subb) (src := .reg c) h
  | subbI cc m a b c => exact exec_cases_alu (op := .subb) (src := .imm c) h
  | negR cc m a b c => exact exec_cases_alu (op := .neg) (src := .reg c) h
  | negI cc m a b c => exact exec_cases_alu (op := .neg) (src := .imm c) h
  | shlR cc m a b c => exact exec_cases_alu (op := .shl) (src := .reg c) h
  | shlI cc m a b c => exact exec_cases_alu (op := .shl) (src := .imm c) h
  | shrR cc m a b c => exact exec_cases_alu (op := .shr) (src := .reg c) h
  | shrI cc m a b c => exact exec_cases_alu (op := .shr) (src := .imm c) h
  | ashrR cc m a b c => exact exec_cases_alu (op := .ashr) (src := .reg c) h
  | ashrI cc m a b c => exact exec_cases_alu (op := .ashr) (src := .imm c) h

/-- Every instruction checks its condition, and then privilege, before its own effect. -/
theorem exec_eq_executeOp (i : Instr) (s : State) : ∃ k, exec i s = executeOp i.cond i.core s k := by
  cases i <;> exact ⟨_, rfl⟩

/-- A privileged operation run in user mode raises the exception, whatever it is. -/
theorem exec_of_privileged {i : Instr} {s : State} (h : Privileged i s) : exec i s = raiseException s := by
  obtain ⟨k, hk⟩ := exec_eq_executeOp i s
  rw [hk, executeOp_of_priv h.1 h.2]

/-! ### One step -/

/-- Every way a step answers a next state: reset, the hardware interrupt, or one instruction (R130 to R134). -/
theorem step_cases {s t : State} (h : step s = .next t) :
    (s.boundary.reset = true ∧ t = s.passBoundary.start) ∨
    (s.boundary.reset = false ∧ s.status.i = true ∧ s.boundary.hwint = true ∧ enterHwint s.passBoundary = .next t) ∨
    (QuietBoundary s ∧ ∃ w i, s.mem.read s.pc = .ok w ∧ decode w = .instr i ∧
      exec i { s with pc := s.pc + 1#32, inputs := s.inputs.tail } = .next t) := by
  unfold step cycle at h
  by_cases hr : s.boundary.reset = true
  · rw [if_pos hr] at h; simp at h; exact .inl ⟨hr, h.symm⟩
  · rw [if_neg hr] at h
    by_cases hi : (s.status.i && s.boundary.hwint) = true
    · rw [if_pos hi] at h; simp at hi hr; exact .inr (.inl ⟨hr, hi.1, hi.2, h⟩)
    · rw [if_neg hi] at h
      simp only [cycleInstr, fetch, load_eq_next] at h
      obtain ⟨w, hw, h⟩ := h
      refine .inr (.inr ⟨⟨by simpa using hr, by simpa using hi⟩, w, ?_⟩)
      cases hd : decode w with
      | instr i => rw [hd] at h; exact ⟨i, hw, rfl, h⟩
      | rejected r => rw [hd] at h; cases r <;> simp [refuseWord] at h

/-- At a quiet boundary the step is one instruction. -/
theorem step_of_quiet {s : State} (h : QuietBoundary s) : step s = cycleInstr s.passBoundary := by
  unfold step cycle
  rw [if_neg (by simp [h.1]), if_neg (by simpa using h.2)]

end Sys2Proof.Machine
end

