-- ==== Sys2Proof/Laws/PerInstr.lean ====
section
/-! SUPPORT. Statements made per instruction: the word of every instruction selects its row of the opcode table. -/

namespace Sys2Proof.Laws.TableRow

open Sys2Proof.Safety

/-- The encoding of an instruction matches its row of `spec/opcode_table.json` and carries its condition in `w[31:28]`. -/
def Statement (i : Instr) : Prop := encode i &&& rowMask i = rowMatch i ∧ field 28 4 (encode i) = i.cond.code

/-- The core lemma: a word whose fields below the condition match the row under a mask that spares the condition. -/
theorem of_core {i : Instr} {M : Word} (hM : rowMask i = M) (hm : field 28 4 M = 0#4)
    (hr : i.core.encode &&& M = rowMatch i)
    (hc : field 28 4 i.core.encode = 0#4) : Statement i := by
  refine ⟨?_, ?_⟩
  · rw [hM, encode, or_and_mask, place_and_zero hm, hr, BitVec.zero_or]
  · rw [encode, field_or, field_place_same (by omega), hc, BitVec.or_zero]

/-- The ALU formats (R97, R98). -/
theorem alu (op : AluOp) (cc : Cond) (m : AluMods) (a b : Reg) (src : AluSrc) : Statement (.alu op cc m a b src) := by
  have hcore : (Instr.alu op cc m a b src).core = .alu op m a b src := by rw [Instr.core, Instr.split_alu]
  have hmask : rowMask (.alu op cc m a b src) = 0x0FF80000#32 := by simp only [rowMask, hcore]
  refine of_core hmask (by decide) ?_ ?_
  · rw [hcore, CoreOp.encode, rowMatch, hcore]
    simp only [or_and_mask]
    rw [place_and_zero (lo := 18) (by decide), place_and_zero (lo := 17) (by decide), place_and_zero (lo := 16) (by decide),
      place_and_zero (lo := 12) (by decide), place_and_zero (lo := 8) (by decide)]
    cases src with
    | reg c =>
      rw [AluSrc.encode, place_and_zero (lo := 4) (by decide)]
      cases op <;> rfl
    | imm v =>
      rw [AluSrc.encode, or_and_mask, place_and_zero (lo := 0) (by decide)]
      cases op <;> rfl
  · rw [hcore, CoreOp.encode]
    cases src <;> simp [AluSrc.encode, field_place_above]

theorem nop (cc : Cond) : Statement (.nop cc) := by
  refine of_core (M := 0x0FF00000#32) rfl (by decide) ?_ (by simp [Instr.core, Instr.split, CoreOp.encode, field_place_above])
  show (place 20 0x00#8) &&& 0x0FF00000#32 = 0x00000000#32
  rfl

theorem ld (cc : Cond) (a : Reg) (addr : BitVec 16) : Statement (.ld cc a addr) := by
  refine of_core (M := 0x0FF00000#32) rfl (by decide) ?_ (by simp [Instr.core, Instr.split, CoreOp.encode, field_place_above])
  show (place 20 0x01#8 ||| place 16 a.code ||| place 0 addr) &&& 0x0FF00000#32 = 0x00100000#32
  simp only [or_and_mask]
  rw [place_and_zero (lo := 16) (by decide), place_and_zero (lo := 0) (by decide)]
  rfl

theorem ldr (cc : Cond) (a b : Reg) (off : BitVec 12) : Statement (.ldr cc a b off) := by
  refine of_core (M := 0x0FF00000#32) rfl (by decide) ?_ (by simp [Instr.core, Instr.split, CoreOp.encode, field_place_above])
  show (place 20 0x02#8 ||| place 16 a.code ||| place 12 b.code ||| place 0 off) &&& 0x0FF00000#32 = 0x00200000#32
  simp only [or_and_mask]
  rw [place_and_zero (lo := 16) (by decide), place_and_zero (lo := 12) (by decide), place_and_zero (lo := 0) (by decide)]
  rfl

theorem ldi (cc : Cond) (a : Reg) (imm : BitVec 16) : Statement (.ldi cc a imm) := by
  refine of_core (M := 0x0FF00000#32) rfl (by decide) ?_ (by simp [Instr.core, Instr.split, CoreOp.encode, field_place_above])
  show (place 20 0x03#8 ||| place 16 a.code ||| place 0 imm) &&& 0x0FF00000#32 = 0x00300000#32
  simp only [or_and_mask]
  rw [place_and_zero (lo := 16) (by decide), place_and_zero (lo := 0) (by decide)]
  rfl

theorem st (cc : Cond) (a : Reg) (addr : BitVec 16) : Statement (.st cc a addr) := by
  refine of_core (M := 0x0FF00000#32) rfl (by decide) ?_ (by simp [Instr.core, Instr.split, CoreOp.encode, field_place_above])
  show (place 20 0x04#8 ||| place 16 a.code ||| place 0 addr) &&& 0x0FF00000#32 = 0x00400000#32
  simp only [or_and_mask]
  rw [place_and_zero (lo := 16) (by decide), place_and_zero (lo := 0) (by decide)]
  rfl

theorem str (cc : Cond) (a b : Reg) (off : BitVec 12) : Statement (.str cc a b off) := by
  refine of_core (M := 0x0FF00000#32) rfl (by decide) ?_ (by simp [Instr.core, Instr.split, CoreOp.encode, field_place_above])
  show (place 20 0x05#8 ||| place 16 a.code ||| place 12 b.code ||| place 0 off) &&& 0x0FF00000#32 = 0x00500000#32
  simp only [or_and_mask]
  rw [place_and_zero (lo := 16) (by decide), place_and_zero (lo := 12) (by decide), place_and_zero (lo := 0) (by decide)]
  rfl

theorem push (cc : Cond) (a : Reg) : Statement (.push cc a) := by
  refine of_core (M := 0x0FF00000#32) rfl (by decide) ?_ (by simp [Instr.core, Instr.split, CoreOp.encode, field_place_above])
  show (place 20 0x06#8 ||| place 16 a.code) &&& 0x0FF00000#32 = 0x00600000#32
  simp only [or_and_mask]
  rw [place_and_zero (lo := 16) (by decide)]
  rfl

theorem pop (cc : Cond) (a : Reg) : Statement (.pop cc a) := by
  refine of_core (M := 0x0FF00000#32) rfl (by decide) ?_ (by simp [Instr.core, Instr.split, CoreOp.encode, field_place_above])
  show (place 20 0x07#8 ||| place 16 a.code) &&& 0x0FF00000#32 = 0x00700000#32
  simp only [or_and_mask]
  rw [place_and_zero (lo := 16) (by decide)]
  rfl

theorem int (cc : Cond) : Statement (.int cc) := by
  refine of_core (M := 0x0FF00000#32) rfl (by decide) ?_ (by simp [Instr.core, Instr.split, CoreOp.encode, field_place_above])
  show (place 20 0x08#8) &&& 0x0FF00000#32 = 0x00800000#32
  rfl

theorem passR (cc : Cond) (m : AluMods) (a b c : Reg) : Statement (.passR cc m a b c) :=
  alu .pass cc m a b (.reg c)

theorem passI (cc : Cond) (m : AluMods) (a b : Reg) (imm : BitVec 8) : Statement (.passI cc m a b imm) :=
  alu .pass cc m a b (.imm imm)

theorem andR (cc : Cond) (m : AluMods) (a b c : Reg) : Statement (.andR cc m a b c) :=
  alu .and cc m a b (.reg c)

theorem andI (cc : Cond) (m : AluMods) (a b : Reg) (imm : BitVec 8) : Statement (.andI cc m a b imm) :=
  alu .and cc m a b (.imm imm)

theorem orR (cc : Cond) (m : AluMods) (a b c : Reg) : Statement (.orR cc m a b c) :=
  alu .or cc m a b (.reg c)

theorem orI (cc : Cond) (m : AluMods) (a b : Reg) (imm : BitVec 8) : Statement (.orI cc m a b imm) :=
  alu .or cc m a b (.imm imm)

theorem xorR (cc : Cond) (m : AluMods) (a b c : Reg) : Statement (.xorR cc m a b c) :=
  alu .xor cc m a b (.reg c)

theorem xorI (cc : Cond) (m : AluMods) (a b : Reg) (imm : BitVec 8) : Statement (.xorI cc m a b imm) :=
  alu .xor cc m a b (.imm imm)

theorem notR (cc : Cond) (m : AluMods) (a b c : Reg) : Statement (.notR cc m a b c) :=
  alu .not cc m a b (.reg c)

theorem notI (cc : Cond) (m : AluMods) (a b : Reg) (imm : BitVec 8) : Statement (.notI cc m a b imm) :=
  alu .not cc m a b (.imm imm)

theorem addR (cc : Cond) (m : AluMods) (a b c : Reg) : Statement (.addR cc m a b c) :=
  alu .add cc m a b (.reg c)

theorem addI (cc : Cond) (m : AluMods) (a b : Reg) (imm : BitVec 8) : Statement (.addI cc m a b imm) :=
  alu .add cc m a b (.imm imm)

theorem addcR (cc : Cond) (m : AluMods) (a b c : Reg) : Statement (.addcR cc m a b c) :=
  alu .addc cc m a b (.reg c)

theorem addcI (cc : Cond) (m : AluMods) (a b : Reg) (imm : BitVec 8) : Statement (.addcI cc m a b imm) :=
  alu .addc cc m a b (.imm imm)

theorem subR (cc : Cond) (m : AluMods) (a b c : Reg) : Statement (.subR cc m a b c) :=
  alu .sub cc m a b (.reg c)

theorem subI (cc : Cond) (m : AluMods) (a b : Reg) (imm : BitVec 8) : Statement (.subI cc m a b imm) :=
  alu .sub cc m a b (.imm imm)

theorem subbR (cc : Cond) (m : AluMods) (a b c : Reg) : Statement (.subbR cc m a b c) :=
  alu .subb cc m a b (.reg c)

theorem subbI (cc : Cond) (m : AluMods) (a b : Reg) (imm : BitVec 8) : Statement (.subbI cc m a b imm) :=
  alu .subb cc m a b (.imm imm)

theorem negR (cc : Cond) (m : AluMods) (a b c : Reg) : Statement (.negR cc m a b c) :=
  alu .neg cc m a b (.reg c)

theorem negI (cc : Cond) (m : AluMods) (a b : Reg) (imm : BitVec 8) : Statement (.negI cc m a b imm) :=
  alu .neg cc m a b (.imm imm)

theorem shlR (cc : Cond) (m : AluMods) (a b c : Reg) : Statement (.shlR cc m a b c) :=
  alu .shl cc m a b (.reg c)

theorem shlI (cc : Cond) (m : AluMods) (a b : Reg) (imm : BitVec 8) : Statement (.shlI cc m a b imm) :=
  alu .shl cc m a b (.imm imm)

theorem shrR (cc : Cond) (m : AluMods) (a b c : Reg) : Statement (.shrR cc m a b c) :=
  alu .shr cc m a b (.reg c)

theorem shrI (cc : Cond) (m : AluMods) (a b : Reg) (imm : BitVec 8) : Statement (.shrI cc m a b imm) :=
  alu .shr cc m a b (.imm imm)

theorem ashrR (cc : Cond) (m : AluMods) (a b c : Reg) : Statement (.ashrR cc m a b c) :=
  alu .ashr cc m a b (.reg c)

theorem ashrI (cc : Cond) (m : AluMods) (a b : Reg) (imm : BitVec 8) : Statement (.ashrI cc m a b imm) :=
  alu .ashr cc m a b (.imm imm)

end Sys2Proof.Laws.TableRow
end

