-- ==== Sys2Proof/Tests/Slice0.lean ====
section
/-! SUPPORT. Tests. Expected results are the spec's: the decoding table and the vectors V, L, K, A and T of
`95_test_vectors.md` and the examples of R150 to R212 (each test names its rows), or are worked out by hand from a rule.
The theorems whose names begin with `witness_` show a state and operands that meet the hypotheses of a statement. -/

namespace Sys2Proof.Tests

open Sys2Proof.Machine Sys2Proof.Safety

/-! ### Helpers -/

/-- The flags N Z C V I M, in that order. -/
abbrev flags (n z c v i m : Bool) : Status := ⟨n, z, c, v, i, m⟩

/-- Supervisor mode, all flags 0. -/
abbrev sup : Status := flags false false false false false false

/-- User mode, the other flags 0. -/
abbrev user : Status := flags false false false false false true

/-- A machine with all of memory backed, given cells and quiet boundaries. -/
def machine (pc sp lr : Word) (f : Status) (cells : List (Nat × Word)) : State :=
  { State.reset with pc := pc, sp := sp, lr := lr, status := f, mem := { State.reset.mem with cells := cells } }

/-- The machine with one general register set. -/
def withReg (n : Fin 12) (v : Word) (s : State) : State := { s with gpr := s.gpr.set n v }

/-- A next state that has a property. -/
def after (r : Result) (p : State → Bool) : Bool :=
  match r with
  | .next t => p t
  | .fault _ => false
  | .refused _ => false

/-- One step, with the word placed where it is fetched. -/
def run (s : State) (w : Nat) (p : State → Bool) : Bool := after (step (s.withFetchWord 32 w)) p

/-- A cell holds a value. -/
def holds (t : State) (a : Word) (v : Word) : Bool := (t.mem.read a).toOption == some v

/-- The start state of the load and store vectors L (2.4). -/
def sL : State :=
  withReg 3 0x00000009#32 <| withReg 4 0x000000FE#32 <|
    machine 0x50#32 0#32 0#32 sup [(0x100, 0xDEADBEEF#32), (0x103, 7#32), (0x8000, 0x11111111#32)]

/-- Two registers set, for the ALU examples: `r2` and `r3`. -/
def sA (r2 r3 : Word) (c : Bool) : State :=
  withReg 2 r2 <| withReg 3 r3 <| machine 0x40#32 0x200#32 0x33#32 (flags false false c false false false) []

/-- A machine whose memory has a hole: only the cells `0x100` to `0x1FF` are backed. -/
def sHole (sp : Word) : State :=
  { machine 0x100#32 sp 0#32 sup [(0x100, 0#32)] with mem := ⟨[⟨0x100, 0x100⟩], [(0x100, 0#32)]⟩ }

/-- No modifier but Immediate, and the modifiers of the compare. -/
abbrev plain : AluMods := ⟨false, false, false⟩

/-- Loadn and Set-status. -/
abbrev test : AluMods := ⟨false, true, true⟩

/-- Set-status. -/
abbrev setS : AluMods := ⟨false, false, true⟩

/-! ### Well-formedness -/

/-- R172: PUSH of sp is ill-formed, PUSH of lr is not. -/
theorem test_wf_push : (Instr.push .none .sp).wellFormed = false ∧ (Instr.push .none .lr).wellFormed = true := by decide

/-- R172: POP of sp is ill-formed, POP of pc is not. -/
theorem test_wf_pop : (Instr.pop .eq .sp).wellFormed = false ∧ (Instr.pop .eq .pc).wellFormed = true := by decide

/-- R196: result and flags both to status are ill-formed; without the result, or without the flags, they are not. -/
theorem test_wf_alu :
    (Instr.orI .none setS .status .status 2#8).wellFormed = false ∧
    (Instr.orI .none test .status .status 2#8).wellFormed = true ∧
    (Instr.orI .none plain .status .status 2#8).wellFormed = true ∧
    (Instr.orI .none setS (.r 1) .status 2#8).wellFormed = true := by decide

/-! ### Decoding and encoding (2.1; S1 to S5) -/

theorem test_decode_nop :
    decode 0x00000000#32 = .instr (.nop .none) ∧ decode 0x000FFFFF#32 = .instr (.nop .none) ∧
    decode 0x10000000#32 = .instr (.nop .eq) := by decide

theorem test_decode_int :
    decode 0x00800000#32 = .instr (.int .none) ∧ decode 0xA0800000#32 = .instr (.int .sge) := by decide

theorem test_decode_absolute :
    decode 0x00120100#32 = .instr (.ld .none (.r 2) 0x0100#16) ∧
    decode 0x00420100#32 = .instr (.st .none (.r 2) 0x0100#16) := by decide

theorem test_decode_offset :
    decode 0x00234005#32 = .instr (.ldr .none (.r 3) (.r 4) 5#12) ∧
    decode 0x00534005#32 = .instr (.str .none (.r 3) (.r 4) 5#12) := by decide

theorem test_decode_immediate :
    decode 0x0031007B#32 = .instr (.ldi .none (.r 1) 123#16) ∧
    decode 0x203F0012#32 = .instr (.ldi .ne .pc 0x0012#16) := by decide

theorem test_decode_stack :
    decode 0x00650000#32 = .instr (.push .none (.r 5)) ∧ decode 0x00750000#32 = .instr (.pop .none (.r 5)) ∧
    decode 0x007F0000#32 = .instr (.pop .none .pc) := by decide

theorem test_decode_modifiers :
    decode 0x0F501230#32 = .instr (.addR .none plain (.r 1) (.r 2) (.r 3)) ∧
    decode 0x0F50123F#32 = .instr (.addR .none plain (.r 1) (.r 2) (.r 3)) ∧
    decode 0x0F58117B#32 = .instr (.addI .none plain (.r 1) (.r 1) 0x7B#8) ∧
    decode 0x0F7C117B#32 = .instr (.subI .none ⟨true, false, false⟩ (.r 1) (.r 1) 0x7B#8) ∧
    decode 0x0F730120#32 = .instr (.subR .none test (.r 0) (.r 1) (.r 2)) ∧
    decode 0x0F711120#32 = .instr (.subR .none setS (.r 1) (.r 1) (.r 2)) ∧
    decode 0x0F00F0E0#32 = .instr (.passR .none plain .pc (.r 0) .lr) ∧
    decode 0x0F28CC01#32 = .instr (.orI .none plain .status .status 1#8) ∧
    decode 0x2F78FF03#32 = .instr (.subI .ne plain .pc .pc 3#8) := by decide

/-- Every ALU operation's register form, with and without `Sb`. -/
theorem test_decode_alu_register :
    decode 0x0F001230#32 = .instr (.passR .none plain (.r 1) (.r 2) (.r 3)) ∧
    decode 0x0F111230#32 = .instr (.andR .none setS (.r 1) (.r 2) (.r 3)) ∧
    decode 0x0F201230#32 = .instr (.orR .none plain (.r 1) (.r 2) (.r 3)) ∧
    decode 0x0F311230#32 = .instr (.xorR .none setS (.r 1) (.r 2) (.r 3)) ∧
    decode 0x0F401230#32 = .instr (.notR .none plain (.r 1) (.r 2) (.r 3)) ∧
    decode 0x0F511230#32 = .instr (.addR .none setS (.r 1) (.r 2) (.r 3)) ∧
    decode 0x0F601230#32 = .instr (.addcR .none plain (.r 1) (.r 2) (.r 3)) ∧
    decode 0x0F711230#32 = .instr (.subR .none setS (.r 1) (.r 2) (.r 3)) ∧
    decode 0x0F801230#32 = .instr (.subbR .none plain (.r 1) (.r 2) (.r 3)) ∧
    decode 0x0F911230#32 = .instr (.negR .none setS (.r 1) (.r 2) (.r 3)) ∧
    decode 0x0FA01230#32 = .instr (.shlR .none plain (.r 1) (.r 2) (.r 3)) ∧
    decode 0x0FB11230#32 = .instr (.shrR .none setS (.r 1) (.r 2) (.r 3)) ∧
    decode 0x0FC01230#32 = .instr (.ashrR .none plain (.r 1) (.r 2) (.r 3)) := by decide

/-- Every ALU operation's immediate form. -/
theorem test_decode_alu_immediate :
    decode 0x0F08127B#32 = .instr (.passI .none plain (.r 1) (.r 2) 0x7B#8) ∧
    decode 0x0F18127B#32 = .instr (.andI .none plain (.r 1) (.r 2) 0x7B#8) ∧
    decode 0x0F28127B#32 = .instr (.orI .none plain (.r 1) (.r 2) 0x7B#8) ∧
    decode 0x0F38127B#32 = .instr (.xorI .none plain (.r 1) (.r 2) 0x7B#8) ∧
    decode 0x0F48127B#32 = .instr (.notI .none plain (.r 1) (.r 2) 0x7B#8) ∧
    decode 0x0F58127B#32 = .instr (.addI .none plain (.r 1) (.r 2) 0x7B#8) ∧
    decode 0x0F68127B#32 = .instr (.addcI .none plain (.r 1) (.r 2) 0x7B#8) ∧
    decode 0x0F78127B#32 = .instr (.subI .none plain (.r 1) (.r 2) 0x7B#8) ∧
    decode 0x0F88127B#32 = .instr (.subbI .none plain (.r 1) (.r 2) 0x7B#8) ∧
    decode 0x0F98127B#32 = .instr (.negI .none plain (.r 1) (.r 2) 0x7B#8) ∧
    decode 0x0FA8127B#32 = .instr (.shlI .none plain (.r 1) (.r 2) 0x7B#8) ∧
    decode 0x0FB8127B#32 = .instr (.shrI .none plain (.r 1) (.r 2) 0x7B#8) ∧
    decode 0x0FC8127B#32 = .instr (.ashrI .none plain (.r 1) (.r 2) 0x7B#8) := by decide

/-- R108, R109, R110. -/
theorem test_decode_rejects :
    decode 0x00900000#32 = .rejected .undefinedInstruction ∧ decode 0x0EF00000#32 = .rejected .undefinedInstruction ∧
    decode 0x0FD01230#32 = .rejected .undefinedAluOperation ∧ decode 0x0FF01230#32 = .rejected .undefinedAluOperation ∧
    decode 0xB0000000#32 = .rejected .reservedCondition ∧ decode 0xF0310001#32 = .rejected .reservedCondition := by decide

/-- The encoder writes the words of the table. -/
theorem test_encode :
    encode (.int .sge) = 0xA0800000#32 ∧ encode (.ldi .ne .pc 0x0012#16) = 0x203F0012#32 ∧
    encode (.str .none (.r 3) (.r 4) 5#12) = 0x00534005#32 ∧ encode (.pop .none .pc) = 0x007F0000#32 ∧
    encode (.subR .none test (.r 0) (.r 1) (.r 2)) = 0x0F730120#32 ∧
    encode (.subI .none ⟨true, false, false⟩ (.r 1) (.r 1) 0x7B#8) = 0x0F7C117B#32 := by decide

/-- The host's view of the decoder. -/
theorem test_decode_table_word :
    decodeTableWord 32 0x0031007B = some (.ldi .none (.r 1) 123#16) ∧ decodeTableWord 32 0x00900000 = none := by decide

/-! ### The step (2.2) -/

/-- V1, V2: NOP advances pc, and pc wraps. -/
theorem test_nop :
    step ((machine 0x10#32 0#32 7#32 user []).withFetchWord 32 0) =
      .next { (machine 0x10#32 0#32 7#32 user []).withFetchWord 32 0 with pc := 0x11#32 } ∧
    run (machine 0xFFFFFFFF#32 0#32 0#32 sup []) 0x00000000 (fun t => t.pc == 0#32) = true := by
  exact ⟨rfl, by decide⟩

/-- V3: pc reads `a + 1`. -/
theorem test_pc_reads_next :
    run (machine 0x40#32 0#32 0#32 sup []) 0x0F0010F0 (fun t => t.readReg (.r 1) == 0x41#32 && t.pc == 0x41#32) = true := by
  decide

/-- V4, V7: a write of pc links, even to the next address. -/
theorem test_ldi_pc_links :
    run (machine 0x40#32 0#32 0#32 sup []) 0x003F0100 (fun t => t.pc == 0x100#32 && t.lr == 0x41#32) = true ∧
    run (machine 0x40#32 0#32 7#32 sup []) 0x003F0041 (fun t => t.pc == 0x41#32 && t.lr == 0x41#32) = true := by decide

/-- V5, V6: a conditional jump. -/
theorem test_conditional_jump :
    run (machine 0x40#32 0#32 7#32 (flags false true false false false false) []) 0x203F0100
      (fun t => t.pc == 0x41#32 && t.lr == 7#32) = true ∧
    run (machine 0x40#32 0#32 7#32 sup []) 0x203F0100 (fun t => t.pc == 0x100#32 && t.lr == 0x41#32) = true := by decide

/-- V8: with `Lnb = 1` pc is not written and nothing links. -/
theorem test_loadn_pc :
    run (machine 0x40#32 0#32 0x99#32 sup []) 0x0F02F0E0 (fun t => t.pc == 0x41#32 && t.lr == 0x99#32) = true := by decide

/-- V9, V10, V11: pc-relative jumps and the return. -/
theorem test_pc_arithmetic :
    run (machine 0x40#32 0#32 0#32 sup []) 0x0F58FF02 (fun t => t.pc == 0x43#32 && t.lr == 0x41#32) = true ∧
    run (machine 0x40#32 0#32 0#32 sup []) 0x0F78FF01 (fun t => t.pc == 0x40#32 && t.lr == 0x41#32) = true ∧
    run (machine 0x41#32 0#32 0x33#32 sup []) 0x0F00F0E0 (fun t => t.pc == 0x33#32 && t.lr == 0x42#32) = true := by decide

/-- 2.3, the second table, the rows `0 0 1 0`, `0 1 0 1`, `1 0 0 0` and `1 1 1 1`: eq ne ult ugt ule uge slt sgt sle sge. -/
theorem test_conditions :
    let row := fun (f : Status) => [Cond.eq, .ne, .ult, .ugt, .ule, .uge, .slt, .sgt, .sle, .sge].map (condHolds · f)
    row (flags false false true false false false) = [false, true, false, true, false, true, false, true, false, true] ∧
    row (flags false true false true false false) = [true, false, true, false, true, false, true, false, true, false] ∧
    row (flags true false false false false false) = [false, true, true, false, true, false, true, false, true, false] ∧
    row (flags true true true true false false) = [true, false, false, false, true, true, false, false, true, true] := by
  decide

/-- 2.3, the first table: the flags after `SUB.T -, r2, r3`. -/
theorem test_compare_flags :
    run (sA 0x80000000#32 1#32 false) 0x0F730230 (fun t => t.status == flags false false true true false false) = true ∧
    run (sA 0#32 0xFFFFFFFF#32 true) 0x0F730230 (fun t => t.status == flags false false false false false false) = true ∧
    run (sA 0x7FFFFFFF#32 0x80000000#32 false) 0x0F730230
      (fun t => t.status == flags true false false true false false) = true := by decide

/-! ### Loads and stores (2.4) -/

/-- L1, L2. -/
theorem test_ld :
    run sL 0x00120100 (fun t => t.readReg (.r 2) == 0xDEADBEEF#32 && t.pc == 0x51#32) = true ∧
    run sL 0x00128000 (fun t => t.readReg (.r 2) == 0x11111111#32) = true := by decide

/-- L3, L4: the base is read before the destination is written. -/
theorem test_ldr :
    run sL 0x00234005 (fun t => t.readReg (.r 3) == 7#32 && t.readReg (.r 4) == 0xFE#32) = true ∧
    run sL 0x00244005 (fun t => t.readReg (.r 4) == 7#32) = true := by decide

/-- L14, L15: a jump through memory; the largest offset is not negative. -/
theorem test_ldr_pc_and_offset :
    run sL 0x002F4005 (fun t => t.pc == 7#32 && t.lr == 0x51#32) = true ∧
    offsetAddr sL (.r 4) 0xFFF#12 = 0x000010FD#32 := by decide

/-- L5, L6, L7, L8. -/
theorem test_ldi :
    run sL 0x0031007B (fun t => t.readReg (.r 1) == 0x7B#32) = true ∧
    run sL 0x0031FFFF (fun t => t.readReg (.r 1) == 0xFFFF#32) = true ∧
    run sL 0x003D0200 (fun t => t.sp == 0x200#32) = true ∧
    run sL 0x003C002A (fun t => t.status == flags true false true false true false) = true := by decide

/-- L9, L10. -/
theorem test_st :
    run sL 0x00430100 (fun t => holds t 0x100#32 9#32 && t.lr == 0#32) = true ∧
    run sL 0x004F0100 (fun t => holds t 0x100#32 0x51#32) = true := by decide

/-- L11: status is stored zero-extended. -/
theorem test_st_status :
    run { sL with status := flags true false true false true false } 0x004C0100 (fun t => holds t 0x100#32 0x2A#32) = true := by
  decide

/-- L12, L13. -/
theorem test_str :
    run sL 0x00534005 (fun t => holds t 0x103#32 9#32 && t.readReg (.r 4) == 0xFE#32) = true ∧
    run sL 0x00533000 (fun t => holds t 9#32 9#32) = true := by decide

/-! ### Stack (2.5) -/

/-- K1, K3: PUSH, and the wrap of sp. -/
theorem test_push :
    run (withReg 5 0xABCD#32 (machine 0x53#32 0x200#32 0#32 sup [])) 0x00650000
      (fun t => t.sp == 0x1FF#32 && holds t 0x1FF#32 0xABCD#32) = true ∧
    run (withReg 5 1#32 (machine 0x53#32 0#32 0#32 sup [])) 0x00650000
      (fun t => t.sp == 0xFFFFFFFF#32 && holds t 0xFFFFFFFF#32 1#32) = true := by decide

/-- K5, K7, K8: PUSH of lr, of pc (`a + 1`) and of status. -/
theorem test_push_special :
    run (machine 0x53#32 0x200#32 0x33#32 sup []) 0x006E0000 (fun t => holds t 0x1FF#32 0x33#32) = true ∧
    run (machine 0x53#32 0x200#32 0#32 sup []) 0x006F0000 (fun t => holds t 0x1FF#32 0x54#32) = true ∧
    run (machine 0x53#32 0x200#32 0#32 (flags false true true false false true) []) 0x006C0000
      (fun t => holds t 0x1FF#32 0x19#32) = true := by decide

/-- K2, K4: POP, and the wrap of sp. -/
theorem test_pop :
    run (machine 0x53#32 0x1FF#32 0#32 sup [(0x1FF, 0xABCD#32)]) 0x00750000
      (fun t => t.readReg (.r 5) == 0xABCD#32 && t.sp == 0x200#32 && holds t 0x1FF#32 0xABCD#32) = true ∧
    run (machine 0x53#32 0xFFFFFFFF#32 0#32 sup [(0xFFFFFFFF, 1#32)]) 0x00750000
      (fun t => t.readReg (.r 5) == 1#32 && t.sp == 0#32) = true := by decide

/-- K6: POP into pc links; K10: POP of status in user mode is an exception, and sp is moved by its pushes only. -/
theorem test_pop_pc_and_privileged :
    run (machine 0x53#32 0x3FF#32 0#32 sup [(0x3FF, 0x62#32)]) 0x007F0000
      (fun t => t.pc == 0x62#32 && t.sp == 0x400#32 && t.lr == 0x54#32) = true ∧
    run (machine 0x53#32 0x200#32 9#32 user [(0x200, 0#32)]) 0x007C0000
      (fun t => holds t 0x1FF#32 0x54#32 && holds t 0x1FE#32 9#32 && t.sp == 0x1FE#32 && t.status == sup && t.pc == 3#32)
      = true := by decide

/-- K9, A6: what the spec leaves without meaning is refused by its name. -/
theorem test_refusals :
    step (sL.withFetchWord 32 0x006D0000) = .refused .pushOfSp ∧
    step (sL.withFetchWord 32 0x007D0000) = .refused .popOfSp ∧
    step (sL.withFetchWord 32 0x0F29CC02) = .refused .resultAndFlagsToStatus ∧
    step (sL.withFetchWord 32 0xB0000000) = .refused (.reservedCondition 0xB0000000#32) := ⟨rfl, rfl, rfl, rfl⟩

/-- R64, R272: an unwritten cell and an address without memory stop the machine. -/
theorem test_faults :
    step (sL.withFetchWord 32 0x00120101) = .fault (.noValue 0x101#32) ∧
    step ((sHole 0x180#32).withFetchWord 32 0x00120200) = .fault (.noMemory 0x200#32) ∧
    step ((sHole 0x180#32).withFetchWord 32 0x00420200) = .fault (.noMemory 0x200#32) := ⟨rfl, rfl, rfl⟩

/-! ### The ALU (2.6): operand selection, results, N and Z, and the modifier corner cases -/

/-- The operand selection table. -/
theorem test_alu_operand_selection :
    let s := withReg 1 23#32 (withReg 2 100#32 (machine 0x40#32 0#32 0#32 sup []))
    run s 0x0F703120 (fun t => t.readReg (.r 3) == 0xFFFFFFB3#32) = true ∧
    run s 0x0F743120 (fun t => t.readReg (.r 3) == 0x4D#32) = true ∧
    run s 0x0F78317B (fun t => t.readReg (.r 3) == 0xFFFFFF9C#32) = true ∧
    run s 0x0F7C317B (fun t => t.readReg (.r 3) == 0x64#32) = true := by decide

/-- An `OP.S r1, r2, r3` word leaves a result in r1 and N, Z. -/
def leaves (w : Nat) (r2 r3 : Word) (c : Bool) (res : Word) (n z : Bool) : Bool :=
  run (sA r2 r3 c) w fun t => t.readReg (.r 1) == res && t.status.n == n && t.status.z == z

/-- The same, with C and V as well. -/
def leavesAll (w : Nat) (r2 r3 : Word) (c : Bool) (res : Word) (n z c' v : Bool) : Bool :=
  run (sA r2 r3 c) w fun t => t.readReg (.r 1) == res && t.status == flags n z c' v false false

theorem test_pass_register :
    leaves 0x0F011230 0#32 0x12345678#32 false 0x12345678#32 false false = true ∧
    leaves 0x0F011230 5#32 0#32 false 0#32 false true = true ∧
    leaves 0x0F011230 0#32 0x80000001#32 false 0x80000001#32 true false = true := by decide

/-- A10. -/
theorem test_pass_immediate : run sL 0x0F0810FF (fun t => t.readReg (.r 1) == 0xFF#32) = true := by decide

theorem test_and :
    leaves 0x0F111230 0xF0F0F0F0#32 0x0FF00FF0#32 false 0x00F000F0#32 false false = true ∧
    leaves 0x0F111230 0xF0F0F0F0#32 0x0F0F0F0F#32 false 0#32 false true = true ∧
    run (sA 0xFFFFFFFF#32 0#32 false) 0x0F18127B (fun t => t.readReg (.r 1) == 0x7B#32) = true := by decide

theorem test_or :
    leaves 0x0F211230 0xF0F0F0F0#32 0x0FF00FF0#32 false 0xFFF0FFF0#32 true false = true ∧
    run (sA 0x100#32 0#32 false) 0x0F28127B (fun t => t.readReg (.r 1) == 0x17B#32) = true := by decide

theorem test_xor :
    leaves 0x0F311230 0xF0F0F0F0#32 0x0FF00FF0#32 false 0xFF00FF00#32 true false = true ∧
    leaves 0x0F311230 0x12345678#32 0x12345678#32 false 0#32 false true = true ∧
    run (sA 0xFF#32 0#32 false) 0x0F38127B (fun t => t.readReg (.r 1) == 0x84#32) = true := by decide

/-- With A11. -/
theorem test_not :
    leaves 0x0F411230 0#32 0x0000FFFF#32 false 0xFFFF0000#32 true false = true ∧
    leaves 0x0F411230 0#32 0xFFFFFFFF#32 false 0#32 false true = true ∧
    run sL 0x0F481000 (fun t => t.readReg (.r 1) == 0xFFFFFFFF#32) = true := by decide

theorem test_add :
    leavesAll 0x0F511230 0x7FFFFFFF#32 1#32 true 0x80000000#32 true false false true = true ∧
    leavesAll 0x0F511230 0xFFFFFFFF#32 1#32 true 0#32 false true true false = true ∧
    leavesAll 0x0F511230 0x80000000#32 0x80000000#32 false 0#32 false true true true = true ∧
    leavesAll 0x0F511230 1#32 2#32 true 3#32 false false false false = true := by decide

/-- S2 (R205's example) and A3. -/
theorem test_add_immediate_and_flags :
    run (withReg 1 1#32 sL) 0x0F58117B (fun t => t.readReg (.r 1) == 124#32) = true ∧
    run (withReg 1 3#32 (withReg 2 5#32 (machine 0x40#32 0#32 0#32 (flags false true true false false false) [])))
      0x0F501120 (fun t => t.readReg (.r 1) == 8#32 && t.status == flags false true true false false false) = true := by
  decide

theorem test_addc :
    leavesAll 0x0F611230 1#32 2#32 false 3#32 false false false false = true ∧
    leavesAll 0x0F611230 0xFFFFFFFF#32 0#32 true 0#32 false true true false = true ∧
    leavesAll 0x0F611230 0x7FFFFFFF#32 0#32 true 0x80000000#32 true false false true = true ∧
    leavesAll 0x0F611230 0xFFFFFFFF#32 0xFFFFFFFF#32 true 0xFFFFFFFF#32 true false true false = true := by decide

/-- R206: the carry is read even when `Sb = 0`. -/
theorem test_addc_immediate :
    run (sA 1#32 0#32 true) 0x0F681202 (fun t => t.readReg (.r 1) == 4#32 && t.status.c) = true := by decide

theorem test_sub :
    leavesAll 0x0F711230 5#32 5#32 false 0#32 false true true false = true ∧
    leavesAll 0x0F711230 3#32 5#32 true 0xFFFFFFFE#32 true false false false = true ∧
    leavesAll 0x0F711230 0x80000000#32 1#32 false 0x7FFFFFFF#32 false false true true = true ∧
    leavesAll 0x0F711230 0x7FFFFFFF#32 0xFFFFFFFF#32 false 0x80000000#32 true false false true = true := by decide

/-- A1: the compare writes no register. -/
theorem test_sub_compare :
    run (withReg 0 7#32 (withReg 1 3#32 (withReg 2 5#32 (machine 0x40#32 0#32 0#32 sup [])))) 0x0F730120
      (fun t => t.readReg (.r 0) == 7#32 && t.status == flags true false false false false false) = true := by decide

theorem test_subb :
    leavesAll 0x0F811230 5#32 3#32 true 2#32 false false true false = true ∧
    leavesAll 0x0F811230 5#32 3#32 false 1#32 false false true false = true ∧
    leavesAll 0x0F811230 0x80000000#32 0#32 false 0x7FFFFFFF#32 false false true true = true ∧
    leavesAll 0x0F811230 0#32 0xFFFFFFFF#32 false 0#32 false true false false = true := by decide

/-- R208: with the carry clear SUBB subtracts one more. -/
theorem test_subb_immediate :
    run (sA 5#32 0#32 false) 0x0F881203 (fun t => t.readReg (.r 1) == 1#32) = true := by decide

/-- With A12. -/
theorem test_neg :
    leaves 0x0F911230 0#32 1#32 false 0xFFFFFFFF#32 true false = true ∧
    leaves 0x0F911230 0#32 0x80000000#32 false 0x80000000#32 true false = true ∧
    run sL 0x0F981001 (fun t => t.readReg (.r 1) == 0xFFFFFFFF#32) = true := by decide

theorem test_shl :
    leaves 0x0FA11230 0x80000001#32 1#32 false 2#32 false false = true ∧
    leaves 0x0FA11230 1#32 0x1F#32 false 0x80000000#32 true false = true ∧
    leaves 0x0FA11230 1#32 0x20#32 false 0#32 false true = true ∧
    run (sA 0xF#32 0#32 false) 0x0FA81204 (fun t => t.readReg (.r 1) == 0xF0#32) = true := by decide

theorem test_shr :
    leaves 0x0FB11230 0x80000000#32 0x1F#32 false 1#32 false false = true ∧
    leaves 0x0FB11230 0x80000000#32 0x20#32 false 0#32 false true = true ∧
    run (sA 0xF0000000#32 0#32 false) 0x0FB81204 (fun t => t.readReg (.r 1) == 0x0F000000#32) = true := by decide

theorem test_ashr :
    leaves 0x0FC11230 0x70000000#32 4#32 false 0x07000000#32 false false = true ∧
    leaves 0x0FC11230 0xFFFFFFFF#32 1#32 false 0xFFFFFFFF#32 true false = true ∧
    leaves 0x0FC11230 0x80000000#32 0x20#32 false 0xFFFFFFFF#32 true false = true ∧
    leaves 0x0FC11230 0x40000000#32 0x28#32 false 0#32 false true = true ∧
    run (sA 0xF0000000#32 0#32 false) 0x0FC81204 (fun t => t.readReg (.r 1) == 0xFF000000#32) = true := by decide

/-- A2, A8: with `Lnb = 1` and `Sb = 0` only pc changes, even with `fA` naming status in user mode. -/
theorem test_loadn_changes_only_pc :
    step (sL.withFetchWord 32 0x0F720120) = .next { sL.withFetchWord 32 0x0F720120 with pc := 0x51#32 } ∧
    step ((machine 0x50#32 0#32 0#32 user []).withFetchWord 32 0x0F2ACC02) =
      .next { (machine 0x50#32 0#32 0#32 user []).withFetchWord 32 0x0F2ACC02 with pc := 0x51#32 } := ⟨rfl, rfl⟩

/-- A4, A9: status as a destination and as a source. -/
theorem test_status_operands :
    run sL 0x0F28CC02 (fun t => t.status == flags false false false false true false) = true ∧
    run { sL with status := flags true false true false true true } 0x0F0010C0
      (fun t => t.readReg (.r 1) == 0x2B#32) = true := by decide

/-- A5, A7: in user mode both are exceptions, the second although it is the combination of R196. -/
theorem test_alu_privileged :
    run (machine 0x40#32 0x200#32 9#32 user []) 0x0F28CC02 (fun t => t.pc == 3#32 && t.status == sup) = true ∧
    run (machine 0x40#32 0x200#32 9#32 user []) 0x0F29CC02 (fun t => t.pc == 3#32 && t.status == sup) = true := by decide

/-! ### Traps (2.7) -/

/-- T1, T2. -/
theorem test_int :
    run (machine 0x61#32 0x400#32 0xAAAA#32 (flags false true true false true true) []) 0x00800000
      (fun t => holds t 0x3FF#32 0x62#32 && holds t 0x3FE#32 0xAAAA#32 && t.sp == 0x3FE#32 && t.lr == 0xAAAA#32 &&
        t.status == flags false true true false true false && t.pc == 2#32) = true ∧
    run (machine 0x61#32 0x400#32 0xAAAA#32 sup []) 0x10800000
      (fun t => t.pc == 0x62#32 && t.sp == 0x400#32) = true := by decide

/-- The state of T3, the line high at the coming boundary. -/
def sT3 : State :=
  { machine 0x81#32 0x500#32 0x1111#32 (flags false false false false true true) [(0x81, 0x00800000#32)] with
    inputs := [⟨false, true⟩] }

/-- T3, T9: the word at pc (an INT here) is not run. -/
theorem test_hwint :
    after (step sT3) (fun t => holds t 0x4FF#32 0x81#32 && holds t 0x4FE#32 0x1111#32 && t.sp == 0x4FE#32 &&
      t.status == sup && t.lr == 0x1111#32 && t.pc == 1#32 && t.inputs == []) = true := by decide

/-- T4: with `status.I = 0` the instruction runs. -/
theorem test_hwint_masked :
    after (step { sT3 with status := user }) (fun t => t.pc == 2#32 && holds t 0x4FF#32 0x82#32) = true := by decide

/-- T5, T6, T7: LDI of status in user mode, in supervisor mode, and not executed. -/
theorem test_ldi_status :
    run (machine 0x82#32 0x500#32 0x94#32 (flags false false false false true true) []) 0x003C0000
      (fun t => holds t 0x4FF#32 0x83#32 && holds t 0x4FE#32 0x94#32 && t.sp == 0x4FE#32 &&
        t.status == flags false false false false true false && t.pc == 3#32) = true ∧
    run (machine 0x82#32 0x500#32 0x94#32 (flags true true true true true false) []) 0x003C0000
      (fun t => t.status == sup && t.pc == 0x83#32) = true ∧
    run (machine 0x82#32 0x500#32 0x94#32 user []) 0x103C0000 (fun t => t.status == user && t.pc == 0x83#32) = true := by
  decide

/-- T8: reset keeps memory. -/
theorem test_reset :
    step { sT3 with inputs := [⟨true, true⟩] } = .next { State.reset with mem := sT3.mem } := rfl

/-! ### Memory in its canonical form -/

/-- A write replaces, inserts in order, and keeps the form; a list out of order or outside the map has it not. -/
theorem test_memory_form :
    putCell 5 9#32 [(3, 1#32), (7, 2#32)] = [(3, 1#32), (5, 9#32), (7, 2#32)] ∧
    putCell 3 9#32 [(3, 1#32), (7, 2#32)] = [(3, 9#32), (7, 2#32)] ∧
    sL.mem.wf = true ∧ (sHole 0#32).mem.wf = true ∧
    (Memory.mk [⟨0, 10⟩] [(3, 1#32), (3, 2#32)]).wf = false ∧ (Memory.mk [⟨0, 3⟩] [(3, 1#32)]).wf = false := by decide

/-! ### Witnesses: the hypotheses of the statements can be met -/

/-- User mode with `status.I` set, on the edge of the address space: the two cells below `sp = 1` are 0 and `0xFFFFFFFF`. -/
def sU : State := machine 0x50#32 1#32 0x94#32 (flags false false false false true true) [(0x50, 0x00800000#32)]

/-- Supervisor mode with a readable stack cell, one readable low cell, and a NOP with Unused bits set at pc. -/
def sS : State :=
  machine 0x50#32 0xFFFFFFFF#32 0x94#32 sup [(0x50, 0xA00FFFFF#32), (0xFFFF, 5#32), (0xFFFFFFFF, 7#32)]

/-- A state with the word at pc, from which one step is taken. -/
abbrev atPc (s : State) (w : Nat) : State := s.withFetchWord 32 w

theorem witness_ResetEventClearsRegisters : State.boundary { sU with inputs := [⟨true, true⟩] } = ⟨true, true⟩ := rfl

/-- A store, a trap entry and an interrupt entry are steps from states with canonical memory. -/
theorem witness_StepKeepsMemoryCanonical :
    (MemoryInv (atPc sS 0x00430100) ∧ ∃ t, step (atPc sS 0x00430100) = .next t) ∧
    (MemoryInv sU ∧ ∃ t, step sU = .next t) ∧
    (MemoryInv { sU with inputs := [⟨false, true⟩] } ∧ ∃ t, step { sU with inputs := [⟨false, true⟩] } = .next t) :=
  ⟨⟨by unfold MemoryInv; decide, _, rfl⟩, ⟨by unfold MemoryInv; decide, _, rfl⟩, by unfold MemoryInv; decide, _, rfl⟩

theorem witness_StepKeepsMemoryMap : ∃ t, step (atPc (sHole 0x180#32) 0x00650000) = .next t := ⟨_, rfl⟩

theorem witness_DecodedWordSelectsItsTableRow :
    decode 0xAFC8FFFF#32 = .instr (.ashrI .sge plain .pc .pc 0xFF#8) ∧ decode 0x00000000#32 = .instr (.nop .none) := by
  decide

/-- Each clause, with words that differ in all the bits it frees. -/
theorem witness_UnusedBitsAreIgnored :
    (field 20 12 0xA00FFFFF#32 = field 20 12 0xA0000000#32 ∧ field 20 8 0xA0000000#32 = 0x00#8) ∧
    (field 20 12 0x008FFFFF#32 = field 20 12 0x00800000#32 ∧ field 20 8 0x00800000#32 = 0x08#8) ∧
    (field 16 16 0x006FFFFF#32 = field 16 16 0x006F0000#32 ∧ field 20 8 0x006F0000#32 = 0x06#8) ∧
    (field 16 16 0x0070FFFF#32 = field 16 16 0x00700000#32 ∧ field 20 8 0x00700000#32 = 0x07#8) ∧
    (field 4 28 0x0F50123F#32 = field 4 28 0x0F501230#32 ∧ field 24 4 0x0F501230#32 = 0xF#4 ∧
      field 19 1 0x0F501230#32 = 0#1) := by decide

/-- Also with the line high and `status.I` clear. -/
theorem witness_StepRunsDecodedInstruction :
    (QuietBoundary sS ∧ sS.mem.read sS.pc = .ok 0xA00FFFFF#32 ∧ decode 0xA00FFFFF#32 = .instr (.nop .sge)) ∧
    QuietBoundary { sS with inputs := [⟨false, true⟩] } :=
  ⟨⟨by unfold QuietBoundary; decide, rfl, rfl⟩, by unfold QuietBoundary; decide⟩

theorem witness_StepStopsOnUnreadableOrRejectedWord :
    (QuietBoundary State.reset ∧ State.reset.mem.read State.reset.pc = .error (.noValue 0#32)) ∧
    (QuietBoundary { sHole 0#32 with pc := 0x200#32 } ∧ (sHole 0#32).mem.read 0x200#32 = .error (.noMemory 0x200#32)) ∧
    decode 0xB0000000#32 = .rejected .reservedCondition ∧ decode 0x00900000#32 = .rejected .undefinedInstruction ∧
    decode 0x0FD00000#32 = .rejected .undefinedAluOperation ∧ (atPc sS 0xB0000000).mem.read sS.pc = .ok 0xB0000000#32 :=
  ⟨⟨by unfold QuietBoundary; decide, rfl⟩, ⟨by unfold QuietBoundary; decide, rfl⟩, rfl, rfl, rfl, rfl⟩

theorem witness_StepTakesHardwareInterrupt :
    let s := { sU with inputs := [⟨false, true⟩] }
    s.boundary.reset = false ∧ s.status.i = true ∧ s.boundary.hwint = true ∧ CanPushTwo s :=
  ⟨rfl, rfl, rfl, by unfold CanPushTwo; decide⟩

/-- Every defined code has its condition, and 11 has none. -/
theorem witness_ConditionTableByCode :
    (∀ k : BitVec 4, k.toNat ≤ 10 → (Cond.ofCode k).isSome = true) ∧ Cond.ofCode 10#4 = some .sge ∧
    Cond.ofCode 11#4 = none := by decide

theorem witness_ConditionsAfterCompare : condHolds .none sS.status = true ∧ condHolds .sge sS.status = true := by decide

theorem witness_FalseConditionHasNoEffect :
    condHolds (Instr.ldi .eq .status 0#16).cond sU.status = false ∧ condHolds (Instr.int .slt).cond sS.status = false := by
  decide

/-- The highest absolute address, and status as destination in supervisor mode. -/
theorem witness_LdLoadsAbsolute :
    condHolds .none sS.status = true ∧ ¬ (Reg.status = .status ∧ sS.status.m = true) ∧
    sS.mem.read ((0xFFFF#16).setWidth 32) = .ok 5#32 := ⟨rfl, by decide, rfl⟩

/-- A base of sp, and a sum that wraps to the first cell. -/
theorem witness_LdrLoadsBasePlusOffset :
    condHolds .none sS.status = true ∧ ¬ (Reg.pc = .status ∧ sS.status.m = true) ∧
    sS.mem.read (sS.readReg .sp + (0#12).setWidth 32) = .ok 7#32 ∧
    (atPc { sS with pc := 0#32 } 0x002FD001).mem.read (sS.readReg .sp + (1#12).setWidth 32) = .ok 0x002FD001#32 :=
  ⟨rfl, by decide, rfl, rfl⟩

theorem witness_LdiLoadsImmediate :
    condHolds .ne sU.status = true ∧ ¬ (Reg.pc = .status ∧ sU.status.m = true) ∧
    ¬ (Reg.status = .status ∧ sS.status.m = true) := by decide

theorem witness_StStoresAbsolute :
    condHolds .none sS.status = true ∧ sS.mem.backs ((0xFFFF#16).setWidth 32 : Word).toNat = true ∧
    (sHole 0#32).mem.backs ((0x1FF#16).setWidth 32 : Word).toNat = true := by decide

theorem witness_StrStoresBasePlusOffset :
    condHolds .none sS.status = true ∧ sS.mem.backs (sS.readReg .sp + (0xFFF#12).setWidth 32).toNat = true := by decide

/-- At `sp = 0` and at `sp = 1`. -/
theorem witness_PushStoresBelowSp :
    condHolds .none sU.status = true ∧ Reg.status ≠ .sp ∧ sU.mem.backs (sU.sp - 1#32).toNat = true ∧
    State.reset.mem.backs (State.reset.sp - 1#32).toNat = true := by decide

/-- At the top of memory, where sp wraps. -/
theorem witness_PopLoadsAtSp :
    condHolds .none sS.status = true ∧ Reg.status ≠ .sp ∧ ¬ (Reg.status = .status ∧ sS.status.m = true) ∧
    sS.mem.read sS.sp = .ok 7#32 := ⟨rfl, by decide, by decide, rfl⟩

theorem witness_NopChangesOnlyPc :
    QuietBoundary sS ∧ sS.mem.read sS.pc = .ok 0xA00FFFFF#32 ∧ decode 0xA00FFFFF#32 = .instr (.nop .sge) :=
  ⟨by unfold QuietBoundary; decide, rfl, rfl⟩

theorem witness_IntEntersSoftwareInterrupt :
    (condHolds .none sU.status = true ∧ CanPushTwo sU) ∧ condHolds .sge State.reset.status = true ∧ CanPushTwo State.reset :=
  ⟨⟨rfl, by unfold CanPushTwo; decide⟩, rfl, by unfold CanPushTwo; decide⟩

/-- Each instruction that can name status as destination, the combination of R196 included. -/
theorem witness_PrivilegedOperationRaisesException :
    CanPushTwo sU ∧ Privileged (.ld .none .status 0#16) sU ∧ Privileged (.ldr .none .status (.r 0) 0#12) sU ∧
    Privileged (.ldi .none .status 0#16) sU ∧ Privileged (.pop .none .status) sU ∧
    Privileged (.orI .none plain .status .status 2#8) sU ∧ Privileged (.orI .none setS .status .status 2#8) sU := by
  unfold CanPushTwo Privileged; decide

theorem witness_CombinationsWithoutMeaningAreRefused : condHolds .none sS.status = true ∧ sS.status.m = false := by decide

/-- The hole: a load where the read has no result, and stores, pushes and the first push of a trap beyond its edges. -/
theorem witness_AccessWithoutResultStops :
    condHolds .none (sHole 0x100#32).status = true ∧
    (sHole 0x100#32).mem.read ((0x200#16).setWidth 32) = .error (.noMemory 0x200#32) ∧
    (sHole 0x100#32).mem.read ((0x1FF#16).setWidth 32) = .error (.noValue 0x1FF#32) ∧
    (sHole 0x100#32).mem.read ((sHole 0x100#32).readReg .sp + (0xFF#12).setWidth 32) = .error (.noValue 0x1FF#32) ∧
    (sHole 0x200#32).mem.read (sHole 0x200#32).sp = .error (.noMemory 0x200#32) ∧
    (sHole 0x100#32).mem.backs ((0xFF#16).setWidth 32 : Word).toNat = false ∧
    (sHole 0x100#32).mem.backs ((sHole 0x100#32).readReg .sp + (0x100#12).setWidth 32).toNat = false ∧
    (sHole 0x100#32).mem.backs ((sHole 0x100#32).sp - 1#32).toNat = false :=
  ⟨rfl, rfl, rfl, rfl, rfl, by decide, by decide, by decide⟩

/-- The hole in user mode with an interrupt coming: from `sp = 0x100` the first push finds no memory, from `0x101` the
second. -/
def sHoleUser (sp : Word) : State :=
  { sHole sp with status := flags false false false false true true, inputs := [⟨false, true⟩] }

theorem witness_AccessWithoutResultStops_trap :
    (sHoleUser 0x100#32).mem.backs ((sHoleUser 0x100#32).sp - 1#32).toNat = false ∧
    (sHoleUser 0x101#32).mem.backs ((sHoleUser 0x101#32).sp - 1#32).toNat = true ∧
    (sHoleUser 0x101#32).mem.backs ((sHoleUser 0x101#32).sp - 2#32).toNat = false ∧
    condHolds .none (sHoleUser 0x101#32).status = true ∧ Privileged (.pop .none .status) (sHoleUser 0x101#32) ∧
    (sHoleUser 0x101#32).boundary = ⟨false, true⟩ ∧ (sHoleUser 0x101#32).status.i = true := by
  unfold Privileged; decide

/-- Where the second push of INT and of the hardware interrupt finds no memory. -/
theorem test_trap_second_push_stops :
    exec (.int .none) (sHoleUser 0x101#32) = .fault (.noMemory 0xFF#32) ∧
    step (sHoleUser 0x101#32) = .fault (.noMemory 0xFF#32) := ⟨rfl, rfl⟩

/-- For the thirteen statements about the ALU operations: an ordinary destination, pc, status without `Sb` in supervisor
mode, and status with `Lnb = 1` and `Sb = 1` in user mode. -/
theorem witness_AluRuns :
    AluRuns .none setS (.r 1) sU ∧ AluRuns .none setS .pc sU ∧ AluRuns .sge plain .status sS ∧
    AluRuns .none test .status sU := by
  unfold AluRuns; decide

/-- A load, a POP, a write of status and a compare, none of them a trap. -/
theorem witness_RegisterOnlyFrame :
    (storeAddr sS (Instr.ld .none (.r 1) 0xFFFF#16).core = none ∧ ¬ Privileged (.ld .none (.r 1) 0xFFFF#16) sS ∧
      ∃ t, exec (.ld .none (.r 1) 0xFFFF#16) sS = .next t) ∧
    (¬ Privileged (.pop .none .pc) sS ∧ ∃ t, exec (.pop .none .pc) sS = .next t) ∧
    (¬ Privileged (.ldi .none .status 3#16) sS ∧ ∃ t, exec (.ldi .none .status 3#16) sS = .next t) ∧
    (¬ Privileged (.subR .none test .status .pc .sp) sU ∧ ∃ t, exec (.subR .none test .status .pc .sp) sU = .next t) :=
  ⟨⟨rfl, by unfold Privileged; decide, _, rfl⟩, ⟨by unfold Privileged; decide, _, rfl⟩,
    ⟨by unfold Privileged; decide, _, rfl⟩, by unfold Privileged; decide, _, rfl⟩

theorem witness_StoreFrame :
    (storeAddr sS (Instr.st .none .pc 0xFFFF#16).core = some 0xFFFF#32 ∧ ∃ t, exec (.st .none .pc 0xFFFF#16) sS = .next t) ∧
    (storeAddr sS (Instr.str .none .lr .sp 1#12).core = some 0#32 ∧ ∃ t, exec (.str .none .lr .sp 1#12) sS = .next t) ∧
    (storeAddr sS (Instr.push .none .status).core = some 0xFFFFFFFE#32 ∧ ∃ t, exec (.push .none .status) sS = .next t) :=
  ⟨⟨rfl, _, rfl⟩, ⟨rfl, _, rfl⟩, rfl, _, rfl⟩

theorem witness_TrapFrame :
    (∃ t, exec (.int .none) sU = .next t) ∧ condHolds .none sU.status = true ∧
    (∃ t, exec (.ldi .none .status 0#16) sU = .next t) ∧ Privileged (.ldi .none .status 0#16) sU :=
  ⟨⟨_, rfl⟩, rfl, ⟨_, rfl⟩, by unfold Privileged; decide⟩

/-- The three ways `status.I` changes, and the masked line. -/
theorem witness_InterruptMaskRule :
    (∃ t, step { sU with inputs := [⟨true, false⟩] } = .next t ∧ t.status.i ≠ sU.status.i) ∧
    (∃ t, step { sU with inputs := [⟨false, true⟩] } = .next t ∧ t.status.i ≠ sU.status.i) ∧
    (∃ t, step (atPc sS 0x003C0002) = .next t ∧ t.status.i ≠ sS.status.i) ∧
    (sS.status.i = false ∧ State.inputs { sS with inputs := [⟨false, true⟩] } = ⟨false, true⟩ :: []) ∧
    (sU.status.i = true ∧ CanPushTwo { sU with inputs := [⟨false, true⟩] }) :=
  ⟨⟨_, rfl, by decide⟩, ⟨_, rfl, by decide⟩, ⟨_, rfl, by decide⟩, ⟨rfl, rfl⟩, rfl, by unfold CanPushTwo; decide⟩

/-- The way into user mode and the four ways out of it, and a quiet step in it. -/
theorem witness_ModeIsEnteredAndLeftOnlyAsStated :
    (∃ t, step (atPc sS 0x003C0001) = .next t ∧ sS.status.m = false ∧ t.status.m = true) ∧
    (∃ t, step { sU with inputs := [⟨true, false⟩] } = .next t ∧ sU.status.m = true ∧ t.status.m = false) ∧
    (∃ t, step { sU with inputs := [⟨false, true⟩] } = .next t ∧ t.status.m = false) ∧
    (∃ t, step sU = .next t ∧ t.status.m = false ∧ t.pc = 2#32) ∧
    (∃ t, step (atPc sU 0x003C0000) = .next t ∧ t.status.m = false ∧ t.pc = 3#32) ∧
    QuietBoundary sU :=
  ⟨⟨_, rfl, rfl, rfl⟩, ⟨_, rfl, rfl, rfl⟩, ⟨_, rfl, rfl⟩, ⟨_, rfl, rfl, rfl⟩, ⟨_, rfl, rfl, rfl⟩,
    by unfold QuietBoundary; decide⟩

/-- lr as a destination, a jump, and a trap entry. -/
theorem witness_LinkRegisterRule :
    (∃ t, exec (.ldi .none .lr 7#16) sS = .next t ∧ t.lr ≠ sS.lr) ∧
    (∃ t, exec (.ldi .none .pc 7#16) sS = .next t ∧ t.lr ≠ sS.lr) ∧ condHolds .none sS.status = true ∧
    (∃ t, trapEnter 2#32 false sU = .next t) :=
  ⟨⟨_, rfl, by decide⟩, ⟨_, rfl, by decide⟩, rfl, _, rfl⟩

/-- A compare and a write of status change the flags. -/
theorem witness_ConditionFlagsWrittenOnlyAsStated :
    (∃ t, exec (.subI .none test (.r 0) (.r 0) 1#8) sU = .next t ∧ t.status.n ≠ sU.status.n) ∧
    (∃ t, exec (.ldi .none .status 0x10#16) sS = .next t ∧ t.status.z ≠ sS.status.z) :=
  ⟨⟨_, rfl, by decide⟩, _, rfl, by decide⟩

/-- Each event of the table, and a jump. -/
theorem witness_VectorTable :
    (∃ t, step { sU with inputs := [⟨true, true⟩] } = .next t) ∧
    (∃ t, step { sU with inputs := [⟨false, true⟩] } = .next t) ∧
    (∃ t, exec (.int .none) sU = .next t) ∧ condHolds .none sU.status = true ∧
    (∃ t, exec (.pop .none .status) sU = .next t) ∧ Privileged (.pop .none .status) sU ∧
    (∃ t, exec (.ldi .none .pc 7#16) sU = .next t ∧ t.pc ≠ sU.pc) :=
  ⟨⟨_, rfl⟩, ⟨_, rfl⟩, ⟨_, rfl⟩, rfl, ⟨_, rfl⟩, by unfold Privileged; decide, _, rfl, by decide⟩

/-- Each way of entering supervisor mode, from user mode. -/
theorem witness_EntryIsSupervisorMode :
    sU.status.m = true ∧ (∃ t, enterHwint sU = .next t) ∧ (∃ t, enterSwint sU = .next t) ∧
    (∃ t, raiseException sU = .next t) ∧ (∃ t, step { sU with inputs := [⟨true, true⟩] } = .next t) ∧
    (sU.status.i = true ∧ ∃ t, step { sU with inputs := [⟨false, true⟩] } = .next t) ∧
    (condHolds .none sU.status = true ∧ ∃ t, exec (.int .none) sU = .next t) ∧
    (Privileged (.pop .none .status) sU ∧ ∃ t, exec (.pop .none .status) sU = .next t) :=
  ⟨rfl, ⟨_, rfl⟩, ⟨_, rfl⟩, ⟨_, rfl⟩, ⟨_, rfl⟩, ⟨rfl, _, rfl⟩, ⟨rfl, _, rfl⟩, by unfold Privileged; decide, _, rfl⟩

theorem witness_ModeMattersOnlyToStatusOperands :
    (Instr.addcR .none setS .pc .lr .sp).core.dest ≠ some .status ∧
    Reg.status ∉ sources (Instr.addcR .none setS .pc .lr .sp).core ∧
    (∃ t, exec (.addcR .none setS .pc .lr .sp) sS = .next t) ∧ (∃ t, exec (.int .none) sU = .next t) :=
  ⟨by decide, by decide, ⟨_, rfl⟩, _, rfl⟩

/-- lr holds a NOP and is stored over the next instruction. -/
def sOver (sp : Word) : State := { sS with lr := 0#32, sp := sp }

/-- ST, STR and PUSH of it, and trap entries of vector 2 that push pc (`0x50`, a NOP) or lr onto the vector. -/
theorem witness_StoreIsSeenByNextFetch :
    decode 0#32 = .instr (.nop .none) ∧ decode (sOver 0#32).pc = .instr (.nop .none) ∧ QuietBoundary (sOver 0#32) ∧
    (storeAddr (sOver 0#32) (Instr.st .none .lr 0x50#16).core = some (sOver 0#32).pc ∧
      storeData (sOver 0#32) (Instr.st .none .lr 0x50#16).core = some 0#32 ∧
      ∃ t, exec (.st .none .lr 0x50#16) (sOver 0#32) = .next t) ∧
    (storeAddr (sOver 0x4F#32) (Instr.str .none .lr .sp 1#12).core = some (sOver 0x4F#32).pc ∧
      storeData (sOver 0x4F#32) (Instr.str .none .lr .sp 1#12).core = some 0#32 ∧
      ∃ t, exec (.str .none .lr .sp 1#12) (sOver 0x4F#32) = .next t) ∧
    (storeAddr (sOver 0x51#32) (Instr.push .none .lr).core = some (sOver 0x51#32).pc ∧
      storeData (sOver 0x51#32) (Instr.push .none .lr).core = some 0#32 ∧
      ∃ t, exec (.push .none .lr) (sOver 0x51#32) = .next t) ∧
    (∃ t, trapEnter 2#32 false (sOver 3#32) = .next t ∧ QuietBoundary t ∧ (sOver 3#32).sp - 1#32 = 2#32) ∧
    (∃ t, trapEnter 2#32 false (sOver 4#32) = .next t ∧ QuietBoundary t ∧ (sOver 4#32).sp - 2#32 = 2#32) :=
  ⟨rfl, rfl, by unfold QuietBoundary; decide, ⟨rfl, rfl, _, rfl⟩, ⟨rfl, rfl, _, rfl⟩, ⟨rfl, rfl, _, rfl⟩,
    ⟨_, rfl, ⟨rfl, by decide⟩, rfl⟩, _, rfl, ⟨rfl, by decide⟩, rfl⟩

theorem witness_PopReturnsWhatPushPushed :
    Reg.pc ≠ .sp ∧ State.reset.mem.backs (State.reset.sp - 1#32).toNat = true ∧
    (sHole 0x101#32).mem.backs ((sHole 0x101#32).sp - 1#32).toNat = true := by decide

theorem witness_HandlerReturnsByTwoPops :
    CanPushTwo sU ∧ CanPushTwo (sHole 0x102#32) ∧ condHolds .none sU.status = true ∧
    Privileged (.pop .none .status) sU ∧ sU.status.i = true ∧
    State.boundary { sU with inputs := [⟨false, true⟩] } = ⟨false, true⟩ := by
  unfold CanPushTwo Privileged; decide

end Sys2Proof.Tests
end

namespace Sys2Proof

open Sys2Proof.Machine

/-- `Cond.ofCode` and `Cond.code` are inverse to one another on the defined codes (R100, R110). -/
theorem Cond.ofCode_eq_some_iff {k : BitVec 4} {cc : Cond} : Cond.ofCode k = some cc ↔ k = cc.code := by
  constructor
  · have code_of_mem : ∀ k : BitVec 4, ∀ cc ∈ Cond.ofCode k, k = cc.code := by decide
    exact code_of_mem k cc
  · rintro rfl
    exact Cond.ofCode_code cc

/-- Settles O15: the code is that of the condition (`Cond.ofCode_eq_some_iff`), and at each of the eleven codes the row of
the table is the expression `condHolds` evaluates (R135). -/
theorem conditionTableByCode : Obligations.ConditionTableByCode := by
  intro k cc f h
  obtain rfl := Cond.ofCode_eq_some_iff.mp h
  cases cc <;> rfl

end Sys2Proof

namespace Sys2Proof

open Sys2Proof.Machine Sys2Proof.Safety

/-- NOP has no effect of its own and no destination, so executed or not it answers its state (R136, R180). -/
theorem Machine.exec_nop (cc : Cond) (s : State) : exec (.nop cc) s = .next s := by
  change executeOp cc .nop s (.next s) = .next s
  cases hc : condHolds cc s.status with
  | false => exact executeOp_eq_next.mpr (.inl ⟨hc, rfl⟩)
  | true => exact executeOp_of hc (by simp [CoreOp.dest]) _

/-- At a quiet boundary a step executes the instruction the word at pc decodes to, after the pc advance (R131 to R134). -/
theorem Machine.step_of_decode {s : State} {w : Word} {i : Instr} (hq : QuietBoundary s) (hw : s.mem.read s.pc = .ok w)
    (hd : decode w = .instr i) : step s = exec i { s with pc := s.pc + 1#32, inputs := s.inputs.tail } := by
  have hr : s.passBoundary.mem.read s.passBoundary.pc = .ok w := hw
  rw [step_of_quiet hq, cycleInstr, fetch, load_of_read hr, hd]
  rfl

/-- Settles O25: `exec` of a NOP answers its state (`Machine.exec_nop`), so of a quiet step only the passed boundary and the
pc advance remain (`Machine.step_of_decode`). -/
theorem nopChangesOnlyPc : Obligations.NopChangesOnlyPc := by
  refine ⟨exec_nop, by decide, fun s w cc hq hw hd => ?_⟩
  rw [step_of_decode hq hw hd, exec_nop]

end Sys2Proof

namespace Sys2Proof

open Sys2Proof.Machine

/-- Each of r0 to r11 is 0 after reset (R271). -/
@[simp] theorem Machine.State.reset_gpr_getElem (n : Fin 12) : State.reset.gpr[n] = 0#32 :=
  Vector.getElem_replicate n.isLt

/-- Every register code reads 0 after reset (R271): status too, as the number of six clear flags (R38). -/
@[simp] theorem Machine.State.reset_readReg (r : Reg) : State.reset.readReg r = 0#32 := by
  cases r with
  | r n => exact State.reset_gpr_getElem n
  | status => decide
  | sp | lr | pc => rfl

/-- Settles O1: r0 to r11 by `Machine.State.reset_gpr_getElem`, the register codes by `Machine.State.reset_readReg`, the
other fields by the definition of the reset state. -/
theorem resetRegistersAreZero : Obligations.ResetRegistersAreZero :=
  ⟨State.reset_gpr_getElem, rfl, rfl, rfl, rfl, State.reset_readReg⟩

end Sys2Proof

/-! ### What every write of a cell keeps, every step keeps -/

namespace Sys2Proof.Machine

open Sys2Proof.Safety

/-- The property of memory survives every write of a cell that succeeds. -/
def Memory.KeptByWrites (P : Memory → Prop) : Prop :=
  ∀ {m m' : Memory} {a v : Word}, m.write a v = .ok m' → P m → P m'

/-- Being in canonical form is such a property. -/
theorem Memory.keptByWrites_wf : Memory.KeptByWrites (·.wf = true) := Memory.wf_write

/-- Having a given `MEM_MAP` is another. -/
theorem Memory.keptByWrites_map (l : List Region) : Memory.KeptByWrites (·.map = l) :=
  fun hw hm => (Memory.write_map hw).trans hm

section KeptByWrites

variable {P : Memory → Prop} (hP : Memory.KeptByWrites P)

include hP

/-- Trap entry changes memory by two writes of cells only (R236). -/
theorem trapEnter_keeps {vec : Word} {clearI : Bool} {s t : State} (h : trapEnter vec clearI s = .next t)
    (hs : P s.mem) : P t.mem := by
  obtain ⟨m1, m2, h1, h2, rfl⟩ := trapEnter_eq_next.mp h
  exact hP h2 (hP h1 hs)

/-- An instruction changes memory by writes of cells only. -/
theorem exec_keeps {i : Instr} {s t : State} (h : exec i s = .next t) (hs : P s.mem) : P t.mem := by
  cases exec_cases h with
  | skip hc ht => rwa [ht]
  | priv hp h => exact trapEnter_keeps hP h hs
  | int hc hi h => exact trapEnter_keeps hP h hs
  | nop hi ht => rwa [ht]
  | dest hc a v hd hf hst hn hnp hi hpu ht => rwa [ht, State.writeReg_mem]
  | pop hc a v hi ha hr hnp ht => rwa [ht, State.writeReg_mem]
  | alu hc op m a b src hi hnp ht => rwa [ht, aluWrite_mem]
  | store hc ea v m hst hd hp hw ht => rw [ht]; exact hP hw hs
  | push hc a hi ha m hw ht => rw [ht]; exact hP hw hs

/-- A step changes memory by writes of cells only: the reset event leaves it as it is (T8). -/
theorem step_keeps {s t : State} (h : step s = .next t) (hs : P s.mem) : P t.mem := by
  rcases step_cases h with ⟨-, rfl⟩ | ⟨-, -, -, h⟩ | ⟨-, w, i, -, -, h⟩
  · exact hs
  · exact trapEnter_keeps hP h hs
  · exact exec_keeps hP h hs

end KeptByWrites

/-- Which addresses are backed is `MEM_MAP`'s to say. -/
theorem Memory.backs_congr {m m' : Memory} (h : m.map = m'.map) (a : Nat) : m.backs a = m'.backs a := by
  rw [Memory.backs, Memory.backs, h]

end Sys2Proof.Machine

namespace Sys2Proof

open Sys2Proof.Machine

/-- Settles O5: the canonical form survives every write of a cell, and so every step. -/
theorem stepKeepsMemoryCanonical : Obligations.StepKeepsMemoryCanonical :=
  fun _ _ h hs => step_keeps Memory.keptByWrites_wf h hs

/-- Settles O6: `MEM_MAP` survives every write of a cell, and so every step. -/
theorem stepKeepsMemoryMap : Obligations.StepKeepsMemoryMap := fun s _ h =>
  have hmap := step_keeps (Memory.keptByWrites_map s.mem.map) h rfl
  ⟨hmap, Memory.backs_congr hmap⟩

/-- Settles O3: after reset no cell is listed. -/
theorem resetMeetsMemoryInvariant : Obligations.ResetMeetsMemoryInvariant := by
  unfold Obligations.ResetMeetsMemoryInvariant Safety.MemoryInv
  decide

end Sys2Proof

/-! ### The decoder, one equation for each instruction code -/

namespace Sys2Proof

open Sys2Proof.Safety

/-- A field inside a field, read by its offset in the outer one. -/
theorem field_sub {lo n k n' : Nat} (h : k + n' ≤ n) (w : Word) :
    field (lo + k) n' w = (field lo n w).extractLsb' k n' := by
  ext i hi
  simp [field, show k + i < n by omega, Nat.add_assoc]

/-- The high half of the instruction code says whether the word is an ALU word (R101). -/
theorem field_code_high (w : Word) : field 24 4 w = (field 20 8 w).extractLsb' 4 4 :=
  field_sub (lo := 20) (k := 4) (by omega) w

/-- Its low half is the ALU operation (R102). -/
theorem field_code_low (w : Word) : field 20 4 w = (field 20 8 w).extractLsb' 0 4 :=
  field_sub (lo := 20) (k := 0) (by omega) w

/-- `AluOp.ofCode` and `AluOp.code` are inverse to one another on the defined codes (R102, R109). -/
theorem AluOp.ofCode_eq_some_iff {k : BitVec 4} {op : AluOp} : AluOp.ofCode k = some op ↔ k = op.code := by
  constructor
  · have code_of_mem : ∀ k : BitVec 4, ∀ op ∈ AluOp.ofCode k, k = op.code := by decide
    exact code_of_mem k op
  · rintro rfl
    exact AluOp.ofCode_code op

section DecodeOp

variable {w : Word} (cc : Cond)

theorem decodeOp_alu (h : field 24 4 w = 0xF#4) : decodeOp cc w = decodeAlu cc w := if_pos h

theorem decodeOp_nop (h : field 20 8 w = 0x00#8) : decodeOp cc w = .instr (.nop cc) := by
  rw [decodeOp, field_code_high, h]; rfl

theorem decodeOp_ld (h : field 20 8 w = 0x01#8) :
    decodeOp cc w = .instr (.ld cc (Reg.ofCode (field 16 4 w)) (field 0 16 w)) := by
  rw [decodeOp, field_code_high, h]; rfl

theorem decodeOp_ldr (h : field 20 8 w = 0x02#8) :
    decodeOp cc w = .instr (.ldr cc (Reg.ofCode (field 16 4 w)) (Reg.ofCode (field 12 4 w)) (field 0 12 w)) := by
  rw [decodeOp, field_code_high, h]; rfl

theorem decodeOp_ldi (h : field 20 8 w = 0x03#8) :
    decodeOp cc w = .instr (.ldi cc (Reg.ofCode (field 16 4 w)) (field 0 16 w)) := by
  rw [decodeOp, field_code_high, h]; rfl

theorem decodeOp_st (h : field 20 8 w = 0x04#8) :
    decodeOp cc w = .instr (.st cc (Reg.ofCode (field 16 4 w)) (field 0 16 w)) := by
  rw [decodeOp, field_code_high, h]; rfl

theorem decodeOp_str (h : field 20 8 w = 0x05#8) :
    decodeOp cc w = .instr (.str cc (Reg.ofCode (field 16 4 w)) (Reg.ofCode (field 12 4 w)) (field 0 12 w)) := by
  rw [decodeOp, field_code_high, h]; rfl

theorem decodeOp_push (h : field 20 8 w = 0x06#8) : decodeOp cc w = .instr (.push cc (Reg.ofCode (field 16 4 w))) := by
  rw [decodeOp, field_code_high, h]; rfl

theorem decodeOp_pop (h : field 20 8 w = 0x07#8) : decodeOp cc w = .instr (.pop cc (Reg.ofCode (field 16 4 w))) := by
  rw [decodeOp, field_code_high, h]; rfl

theorem decodeOp_int (h : field 20 8 w = 0x08#8) : decodeOp cc w = .instr (.int cc) := by
  rw [decodeOp, field_code_high, h]; rfl

/-- Every other code is rejected (R108). -/
theorem decodeOp_undefined (h : 0x08 < (field 20 8 w).toNat) (hF : field 24 4 w ≠ 0xF#4) :
    decodeOp cc w = .rejected .undefinedInstruction := by
  have hne (c : BitVec 8) (hc : c.toNat ≤ 8) : field 20 8 w ≠ c := by rintro rfl; omega
  simp [decodeOp, hF, hne]

theorem decodeAlu_of_op {op : AluOp} (h : field 20 4 w = op.code) :
    decodeAlu cc w = .instr (.alu op cc (aluModsOf w) (Reg.ofCode (field 12 4 w)) (Reg.ofCode (field 8 4 w))
      (aluSrcOf w)) := by
  rw [decodeAlu, h, AluOp.ofCode_code]

end DecodeOp

theorem decode_of_cond {w : Word} {cc : Cond} (h : field 28 4 w = cc.code) : decode w = decodeOp cc w := by
  rw [decode, h, Cond.ofCode_code]

/-! ### Decoding what was encoded -/

/-- The instruction of a condition and an operation: `Instr.split` undone. -/
def CoreOp.withCond (cc : Cond) : CoreOp → Instr
  | .nop => .nop cc
  | .ld a addr => .ld cc a addr
  | .ldr a b off => .ldr cc a b off
  | .ldi a imm => .ldi cc a imm
  | .st a addr => .st cc a addr
  | .str a b off => .str cc a b off
  | .push a => .push cc a
  | .pop a => .pop cc a
  | .int => .int cc
  | .alu op m a b src => .alu op cc m a b src

@[simp] theorem Instr.core_withCond_cond (i : Instr) : i.core.withCond i.cond = i := by cases i <;> rfl

/-- The modifier bits read what is placed in them (R97). -/
theorem aluModsOf_eq (w : Word) (m : AluMods) (h18 : field 18 1 w = bit m.rev) (h17 : field 17 1 w = bit m.loadn)
    (h16 : field 16 1 w = bit m.set) : aluModsOf w = m := by
  simp only [aluModsOf, getLsbD_eq_field w, h18, h17, h16]
  simp [bit]

/-- The fields below the condition decode to the operation they were made from, whatever the condition field holds. -/
theorem decodeOp_place_or_encode (k : BitVec 4) (cc : Cond) (op : CoreOp) :
    decodeOp cc (place 28 k ||| op.encode) = .instr (op.withCond cc) := by
  cases op with
  | nop => exact decodeOp_nop cc (by simp [CoreOp.encode, field_place_same, field_place_below])
  | ld a addr =>
    rw [decodeOp_ld cc] <;>
      simp [CoreOp.encode, CoreOp.withCond, field_place_same, field_place_below, field_place_above]
  | ldr a b off =>
    rw [decodeOp_ldr cc] <;>
      simp [CoreOp.encode, CoreOp.withCond, field_place_same, field_place_below, field_place_above]
  | ldi a imm =>
    rw [decodeOp_ldi cc] <;>
      simp [CoreOp.encode, CoreOp.withCond, field_place_same, field_place_below, field_place_above]
  | st a addr =>
    rw [decodeOp_st cc] <;>
      simp [CoreOp.encode, CoreOp.withCond, field_place_same, field_place_below, field_place_above]
  | str a b off =>
    rw [decodeOp_str cc] <;>
      simp [CoreOp.encode, CoreOp.withCond, field_place_same, field_place_below, field_place_above]
  | push a =>
    rw [decodeOp_push cc] <;>
      simp [CoreOp.encode, CoreOp.withCond, field_place_same, field_place_below, field_place_above]
  | pop a =>
    rw [decodeOp_pop cc] <;>
      simp [CoreOp.encode, CoreOp.withCond, field_place_same, field_place_below, field_place_above]
  | int => exact decodeOp_int cc (by simp [CoreOp.encode, field_place_same, field_place_below])
  | alu op m a b src =>
    rw [decodeOp_alu cc, decodeAlu_of_op cc (op := op), aluModsOf_eq _ m, aluSrcOf, getLsbD_eq_field] <;> cases src <;>
      simp [CoreOp.encode, AluSrc.encode, CoreOp.withCond, field_place_same, field_place_below, field_place_above]

/-- The condition field is read back: the fields of the operation end below it. -/
theorem field_cond_encode (i : Instr) : field 28 4 (encode i) = i.cond.code := by
  have hop : field 28 4 i.core.encode = 0#4 := by
    cases i.core with
    | alu op m a b src => cases src <;> simp [CoreOp.encode, AluSrc.encode, field_place_above]
    | _ => simp [CoreOp.encode, field_place_above]
  rw [encode, field_or, field_place_same (by omega), hop, BitVec.or_zero]

/-- Settles O7: the condition field gives the condition back, and the fields below it the operation. -/
theorem decodeOfEncodeIsIdentity : Obligations.DecodeOfEncodeIsIdentity := by
  intro i
  rw [decode_of_cond (field_cond_encode i), encode, decodeOp_place_or_encode, Instr.core_withCond_cond]

/-! ### What decodes, and what is rejected -/

/-- The mask of a row that is no ALU row keeps the instruction code. -/
theorem and_codeMask (w : Word) : w &&& 0x0FF00000#32 = place 20 (field 20 8 w) := and_place_allOnes 20 8 w

/-- The mask of an ALU row keeps its `0xF`, the operation and `Ib`. -/
theorem and_aluMask (w : Word) :
    w &&& 0x0FF80000#32 = place 24 (field 24 4 w) ||| place 20 (field 20 4 w) ||| place 19 (field 19 1 w) := by
  rw [← and_place_allOnes, ← and_place_allOnes, ← and_place_allOnes, ← BitVec.and_or_distrib_left,
    ← BitVec.and_or_distrib_left]
  rfl

/-- An ALU word matches the row of its operation and second source. -/
theorem aluWord_row {w : Word} {op : AluOp} (cc : Cond) (m : AluMods) (a b : Reg) (hF : field 24 4 w = 0xF#4)
    (hop : field 20 4 w = op.code) :
    w &&& rowMask (.alu op cc m a b (aluSrcOf w)) = rowMatch (.alu op cc m a b (aluSrcOf w)) := by
  have hcore : ∀ src, (Instr.alu op cc m a b src).core = .alu op m a b src := by simp [Instr.core]
  simp only [rowMask, rowMatch, hcore]
  rw [and_aluMask, hF, hop, aluSrcOf, getLsbD_eq_field]
  rcases BitVec.eq_zero_or_eq_one (field 19 1 w) with h | h <;> rw [h] <;> cases op <;> rfl

/-- A word that is no ALU word matches the row of its instruction code. -/
theorem codeWord_row {w : Word} {i : Instr} {c : BitVec 8} (hc : field 20 8 w = c) (hmask : rowMask i = 0x0FF00000#32)
    (hmatch : rowMatch i = place 20 c) : w &&& rowMask i = rowMatch i := by
  rw [hmask, hmatch, and_codeMask, hc]

/-- What an operation decodes to has the condition given and matches its row of `spec/opcode_table.json`. -/
theorem decodeOp_eq_instr {w : Word} {cc : Cond} {i : Instr} (h : decodeOp cc w = .instr i) :
    i.cond = cc ∧ w &&& rowMask i = rowMatch i := by
  unfold decodeOp at h
  split_ifs at h with hF h0 h1 h2 h3 h4 h5 h6 h7 h8
  · unfold decodeAlu at h
    split at h
    · cases h
    · next op hop =>
      cases h
      exact ⟨by simp [Instr.cond], aluWord_row _ _ _ _ hF (AluOp.ofCode_eq_some_iff.mp hop)⟩
  · cases h; exact ⟨rfl, codeWord_row h0 rfl rfl⟩
  · cases h; exact ⟨rfl, codeWord_row h1 rfl rfl⟩
  · cases h; exact ⟨rfl, codeWord_row h2 rfl rfl⟩
  · cases h; exact ⟨rfl, codeWord_row h3 rfl rfl⟩
  · cases h; exact ⟨rfl, codeWord_row h4 rfl rfl⟩
  · cases h; exact ⟨rfl, codeWord_row h5 rfl rfl⟩
  · cases h; exact ⟨rfl, codeWord_row h6 rfl rfl⟩
  · cases h; exact ⟨rfl, codeWord_row h7 rfl rfl⟩
  · cases h; exact ⟨rfl, codeWord_row h8 rfl rfl⟩

/-- A word decodes by its condition field, and then by the fields below. -/
theorem decode_eq_instr {w : Word} {i : Instr} (h : decode w = .instr i) :
    ∃ cc, field 28 4 w = cc.code ∧ decodeOp cc w = .instr i := by
  unfold decode at h
  split at h
  · cases h
  · next cc hcc => exact ⟨cc, Cond.ofCode_eq_some_iff.mp hcc, h⟩

/-- Settles O9: the condition by `decode_eq_instr`, the row by `decodeOp_eq_instr`. -/
theorem decodedWordSelectsItsTableRow : Obligations.DecodedWordSelectsItsTableRow := by
  intro w i h
  obtain ⟨cc, hcc, h⟩ := decode_eq_instr h
  obtain ⟨rfl, hrow⟩ := decodeOp_eq_instr h
  exact ⟨hrow, hcc⟩

/-- Below 9 every instruction code has an instruction (R101). -/
theorem decodeOp_defined {w : Word} (cc : Cond) (h : (field 20 8 w).toNat ≤ 8) : ∃ i, decodeOp cc w = .instr i := by
  have codes : ∀ c : BitVec 8, c.toNat ≤ 8 →
      c = 0#8 ∨ c = 1#8 ∨ c = 2#8 ∨ c = 3#8 ∨ c = 4#8 ∨ c = 5#8 ∨ c = 6#8 ∨ c = 7#8 ∨ c = 8#8 := by decide
  rcases codes _ h with h | h | h | h | h | h | h | h | h
  · exact ⟨_, decodeOp_nop cc h⟩
  · exact ⟨_, decodeOp_ld cc h⟩
  · exact ⟨_, decodeOp_ldr cc h⟩
  · exact ⟨_, decodeOp_ldi cc h⟩
  · exact ⟨_, decodeOp_st cc h⟩
  · exact ⟨_, decodeOp_str cc h⟩
  · exact ⟨_, decodeOp_push cc h⟩
  · exact ⟨_, decodeOp_pop cc h⟩
  · exact ⟨_, decodeOp_int cc h⟩

/-- An ALU word is rejected by its operation alone (R109). -/
theorem decodeAlu_rejected_iff {w : Word} (cc : Cond) :
    (∃ r, decodeAlu cc w = .rejected r) ↔ 13 ≤ (field 20 4 w).toNat := by
  have undefined_iff : ∀ k : BitVec 4, AluOp.ofCode k = none ↔ 13 ≤ k.toNat := by decide
  rw [← undefined_iff, decodeAlu]
  cases AluOp.ofCode (field 20 4 w) <;> simp

/-- Below the condition a word is rejected by its instruction code alone (R108, R109). -/
theorem decodeOp_rejected_iff {w : Word} (cc : Cond) :
    (∃ r, decodeOp cc w = .rejected r) ↔
      (0x09 ≤ (field 20 8 w).toNat ∧ (field 20 8 w).toNat ≤ 0xEF) ∨ 0xFD ≤ (field 20 8 w).toNat := by
  have alu_iff : ∀ c : BitVec 8, c.extractLsb' 4 4 = 0xF#4 ↔ 0xF0 ≤ c.toNat := by decide
  have op_iff : ∀ c : BitVec 8, c.extractLsb' 4 4 = 0xF#4 → (13 ≤ (c.extractLsb' 0 4).toNat ↔ 0xFD ≤ c.toNat) := by
    decide
  by_cases hF : field 24 4 w = 0xF#4
  · rw [decodeOp_alu cc hF, decodeAlu_rejected_iff, field_code_low, op_iff _ (field_code_high w ▸ hF)]
    rw [field_code_high, alu_iff] at hF
    omega
  · by_cases h8 : (field 20 8 w).toNat ≤ 8
    · obtain ⟨i, hi⟩ := decodeOp_defined cc h8
      exact iff_of_false (by simp [hi]) (by omega)
    · have hlow : (field 20 8 w).toNat ≤ 0xEF := by
        rw [field_code_high, alu_iff] at hF
        omega
      exact iff_of_true ⟨_, decodeOp_undefined cc (by omega) hF⟩ (by omega)

/-- Settles O10: the condition field, and below it `decodeOp_rejected_iff`. -/
theorem decoderRejectsExactlyUndefinedCodes : Obligations.DecoderRejectsExactlyUndefinedCodes := by
  intro w
  have reserved_iff : ∀ k : BitVec 4, Cond.ofCode k = none ↔ 11 ≤ k.toNat := by decide
  rw [← reserved_iff, decode]
  cases Cond.ofCode (field 28 4 w) with
  | none => simp
  | some cc => simpa using decodeOp_rejected_iff cc

/-! ### The Unused bits -/

/-- Words with one condition field decode alike if they do so below it. -/
theorem decode_congr {u w : Word} (hcc : field 28 4 u = field 28 4 w) (h : ∀ cc, decodeOp cc u = decodeOp cc w) :
    decode u = decode w := by
  rw [decode, decode, hcc]
  cases Cond.ofCode (field 28 4 w) with
  | none => rfl
  | some cc => exact h cc

/-- Register C is read of an ALU word with `Ib = 0` (R97). -/
theorem aluSrcOf_reg {w : Word} (h : field 19 1 w = 0#1) : aluSrcOf w = .reg (Reg.ofCode (field 4 4 w)) := by
  rw [aluSrcOf, getLsbD_eq_field, h]; rfl

/-- Settles O11: each kind of word is decoded from fields above its Unused bits. -/
theorem unusedBitsAreIgnored : Obligations.UnusedBitsAreIgnored := by
  refine fun u w => ⟨fun h hw => ?_, fun h hw => ?_, fun h hF hI => ?_⟩
  · have hcode : field 20 8 u = field 20 8 w := field_of_field_eq (by omega) (by omega) h
    refine decode_congr (field_of_field_eq (by omega) (by omega) h) fun cc => ?_
    rcases hw with hw | hw
    · rw [decodeOp_nop cc hw, decodeOp_nop cc (hcode.trans hw)]
    · rw [decodeOp_int cc hw, decodeOp_int cc (hcode.trans hw)]
  · have hcode : field 20 8 u = field 20 8 w := field_of_field_eq (by omega) (by omega) h
    have hreg : field 16 4 u = field 16 4 w := field_of_field_eq (by omega) (by omega) h
    refine decode_congr (field_of_field_eq (by omega) (by omega) h) fun cc => ?_
    rcases hw with hw | hw
    · rw [decodeOp_push cc hw, decodeOp_push cc (hcode.trans hw), hreg]
    · rw [decodeOp_pop cc hw, decodeOp_pop cc (hcode.trans hw), hreg]
  · have agree (lo n) (hlo : 4 ≤ lo := by decide) (hn : lo + n ≤ 32 := by decide) : field lo n u = field lo n w :=
      field_of_field_eq hlo hn h
    have hmods : aluModsOf u = aluModsOf w := by
      simp only [aluModsOf, getLsbD_eq_field, agree 18 1, agree 17 1, agree 16 1]
    have hsrc : aluSrcOf u = aluSrcOf w := by
      rw [aluSrcOf_reg hI, aluSrcOf_reg (by rwa [agree 19 1]), agree 4 4]
    refine decode_congr (agree 28 4) fun cc => ?_
    rw [decodeOp_alu cc hF, decodeOp_alu cc (by rwa [agree 24 4]), decodeAlu, decodeAlu, hmods, hsrc, agree 20 4,
      agree 12 4, agree 8 4]

/-- Settles O8, by running the decoder. -/
theorem sampleWordsDecode : Obligations.SampleWordsDecode := by
  unfold Obligations.SampleWordsDecode
  decide

end Sys2Proof

/-! ### The own effect of each of the ten instructions -/

namespace Sys2Proof.Machine

open Sys2Proof.Safety

/-- What each of the ten instructions does once its condition and its privilege are checked. -/
def ownEffect : CoreOp → State → Result
  | .nop, s => .next s
  | .ld a addr, s => load (absoluteAddr addr) s fun v => .next (s.writeReg a v)
  | .ldr a b off, s => load (offsetAddr s b off) s fun v => .next (s.writeReg a v)
  | .ldi a imm, s => .next (s.writeReg a (ldiImm imm))
  | .st a addr, s => store (absoluteAddr addr) (s.readReg a) s .next
  | .str a b off, s => store (offsetAddr s (strBase a b) off) (s.readReg (strData a b)) s .next
  | .push a, s => if a = .sp then .refused .pushOfSp else push (s.readReg a) s .next
  | .pop a, s =>
    if a = .sp then .refused .popOfSp
    else load s.sp s fun v => .next (State.writeReg { s with sp := s.sp + 1#32 } a v)
  | .int, s => enterSwint s
  | .alu op m a b src, s =>
    if !m.loadn && m.set && a == .status then .refused .resultAndFlagsToStatus
    else .next (aluWrite op m a (operandB m b src s) (operandC m b src s) s)

/-- Every instruction is its own effect behind the two checks (R134, R137). -/
theorem exec_eq (i : Instr) (s : State) : exec i s = executeOp i.cond i.core s (ownEffect i.core s) := by
  cases i <;> rfl

/-- Where its condition holds and it is not privileged, an instruction has its own effect. -/
theorem exec_of_runs (i : Instr) {s : State} (hc : condHolds i.cond s.status = true) (hp : ¬ Privileged i s) :
    exec i s = ownEffect i.core s := by
  rw [exec_eq, executeOp_of hc fun h => hp ⟨hc, h⟩]

/-- An instruction without destination status is not privileged (R234). -/
theorem not_privileged_of_dest {i : Instr} {s : State} (h : i.core.dest ≠ some .status) : ¬ Privileged i s :=
  fun hp => h hp.2.1

/-- An instruction whose destination is `a` is privileged at most where `a` is status and the mode user mode (R234). -/
theorem not_privileged_of_dest_eq {i : Instr} {s : State} {a : Reg} (hd : i.core.dest = some a)
    (h : ¬ (a = .status ∧ s.status.m = true)) : ¬ Privileged i s :=
  fun hp => h ⟨Option.some.inj (hd.symm.trans hp.2.1), hp.2.2⟩

/-- INT executed is software-interrupt entry (R181). -/
theorem exec_of_core_int (i : Instr) {s : State} (hi : i.core = .int) (hc : condHolds i.cond s.status = true) :
    exec i s = enterSwint s := by
  rw [exec_of_runs i hc (not_privileged_of_dest (by simp [hi, CoreOp.dest])), hi]
  rfl

/-- An instruction whose condition is false leaves the state alone (R136). -/
theorem exec_of_not_holds {i : Instr} {s : State} (hc : condHolds i.cond s.status = false) : exec i s = .next s := by
  rw [exec_eq, executeOp, whenHolds_false hc]

/-! ### Accesses that complete and accesses that stop -/

/-- A load without a result stops by the read's fault (R64). -/
theorem load_of_error {a : Word} {s : State} {f : Fault} (h : s.mem.read a = .error f) (k : Word → Result) :
    load a s k = .fault f := by simp [load, h]

/-- A store at a backed address completes with one cell written (R65). -/
theorem exists_store_of_backs {ea v : Word} {s : State} (h : s.mem.backs ea.toNat = true) :
    ∃ t, store ea v s .next = .next t ∧ StoresCell ea v s t ∧ SameRegs s t := by
  obtain ⟨m, hm⟩ := exists_write_of_backs (v := v) h
  exact ⟨{ s with mem := m }, store_eq_next.mpr ⟨m, hm, rfl⟩, write_storesCell hm, rfl, rfl, rfl, rfl, rfl, rfl⟩

/-- A push whose write succeeds goes on with sp one lower (R170). -/
theorem push_of_write {v : Word} {s : State} {m : Memory} (h : s.mem.write (s.sp - 1#32) v = .ok m)
    (k : State → Result) : push v s k = k { s with sp := s.sp - 1#32, mem := m } := by simp [push, store, h]

/-- A push where no memory is stops (R65, R170). -/
theorem push_of_not_backs {v : Word} {s : State} (h : s.mem.backs (s.sp - 1#32).toNat = false) (k : State → Result) :
    push v s k = .fault (.noMemory (s.sp - 1#32)) := store_of_not_backs (s := { s with sp := s.sp - 1#32 }) h k

/-- Where a trap entry finds no memory it stops at the first such push (R65, R236; log entry 34). -/
theorem trapEnter_stops (vec : Word) (clearI : Bool) (s : State) : TrapStops s (trapEnter vec clearI s) := by
  refine ⟨fun h1 => push_of_not_backs h1 _, fun h1 h2 => ?_⟩
  obtain ⟨m, hm⟩ := exists_write_of_backs (v := s.pc) h1
  rw [← sub_one_sub_one, ← Memory.write_backs hm] at h2
  rw [← sub_one_sub_one, trapEnter, push_of_write hm]
  exact push_of_not_backs (s := { s with sp := s.sp - 1#32, mem := m }) h2 _

end Sys2Proof.Machine

namespace Sys2Proof

open Sys2Proof.Machine Sys2Proof.Safety

/-! ### Loads, stores, stack and INT: where each completes, and with what -/

/-- Settles O17: the condition is checked before any effect. -/
theorem falseConditionHasNoEffect : Obligations.FalseConditionHasNoEffect := fun _ _ => exec_of_not_holds

/-- Settles O18: the read gives `v`, and the write of the destination is R31's. -/
theorem ldLoadsAbsolute : Obligations.LdLoadsAbsolute := by
  intro cc a addr s v hc hp hv
  refine ⟨s.writeReg a v, ?_, writeReg_writesDest a v s⟩
  rw [exec_of_runs (.ld cc a addr) hc (not_privileged_of_dest_eq rfl hp)]
  exact load_of_read hv _

/-- Settles O19: likewise, the base being read of the state before the write. -/
theorem ldrLoadsBasePlusOffset : Obligations.LdrLoadsBasePlusOffset := by
  intro cc a b off s v hc hp hv
  refine ⟨s.writeReg a v, ?_, writeReg_writesDest a v s⟩
  rw [exec_of_runs (.ldr cc a b off) hc (not_privileged_of_dest_eq rfl hp)]
  exact load_of_read hv _

/-- Settles O20: no memory is read, so only the privilege check comes before the write. -/
theorem ldiLoadsImmediate : Obligations.LdiLoadsImmediate := by
  intro cc a imm s hc hp
  refine ⟨s.writeReg a (imm.setWidth 32), ?_, writeReg_writesDest a _ s⟩
  rw [exec_of_runs (.ldi cc a imm) hc (not_privileged_of_dest_eq rfl hp)]
  rfl

/-- Settles O21: ST has no destination, so it is not privileged, and its store completes. -/
theorem stStoresAbsolute : Obligations.StStoresAbsolute := by
  intro cc a addr s hc hb
  rw [exec_of_runs (.st cc a addr) hc (not_privileged_of_dest nofun)]
  exact exists_store_of_backs hb

/-- Settles O22: likewise, at the address STR computes. -/
theorem strStoresBasePlusOffset : Obligations.StrStoresBasePlusOffset := by
  intro cc a b off s hc hb
  rw [exec_of_runs (.str cc a b off) hc (not_privileged_of_dest nofun)]
  exact exists_store_of_backs hb

/-- Settles O23: a push is a store through the decremented sp. -/
theorem pushStoresBelowSp : Obligations.PushStoresBelowSp := by
  intro cc a s hc ha hb
  rw [exec_of_runs (.push cc a) hc (not_privileged_of_dest nofun)]
  obtain ⟨t, ht, hcell, hregs⟩ := exists_store_of_backs (s := { s with sp := s.sp - 1#32 }) (v := s.readReg a) hb
  exact ⟨t, (if_neg ha).trans ht, hcell, hregs⟩

/-- Settles O24: the destination is written after the increment of sp. -/
theorem popLoadsAtSp : Obligations.PopLoadsAtSp := by
  intro cc a s v hc ha hp hv
  refine ⟨State.writeReg { s with sp := s.sp + 1#32 } a v, ?_, writeReg_writesDest a v _⟩
  rw [exec_of_runs (.pop cc a) hc (not_privileged_of_dest_eq rfl hp)]
  exact (if_neg ha).trans (load_of_read hv _)

/-- Settles O26: INT is trap entry of vector 2, which completes where both cells are backed. -/
theorem intEntersSoftwareInterrupt : Obligations.IntEntersSoftwareInterrupt := by
  intro cc s hc hpush
  obtain ⟨t, ht⟩ := exists_trapEnter hpush
  exact ⟨t, (exec_of_core_int (.int cc) rfl hc).trans ht, trapEnter_trapped ht⟩

/-- Settles O27: the exception is trap entry of vector 3. -/
theorem privilegedOperationRaisesException : Obligations.PrivilegedOperationRaisesException := by
  intro i s hp hpush
  obtain ⟨t, ht⟩ := exists_trapEnter hpush
  exact ⟨t, (exec_of_privileged hp).trans ht, trapEnter_trapped ht⟩

/-! ### Where an instruction is refused or stops -/

/-- Settles O28: neither the condition nor privilege comes in between, so the own effect refuses. -/
theorem combinationsWithoutMeaningAreRefused : Obligations.CombinationsWithoutMeaningAreRefused := by
  intro cc s hc
  refine ⟨?_, ?_, fun op rev b src hm => ?_⟩
  · exact exec_of_runs (.push cc .sp) hc (not_privileged_of_dest nofun)
  · exact exec_of_runs (.pop cc .sp) hc (not_privileged_of_dest nofun)
  · rw [exec_alu, execAlu, executeOp_of hc (by simp [hm])]
    rfl

/-- The interrupt is entered in place of an instruction (R231, R232). -/
theorem Machine.step_of_hwint {s : State} (hr : s.boundary.reset = false) (hi : s.status.i = true)
    (hl : s.boundary.hwint = true) : step s = trapEnter 1#32 true { s with inputs := s.inputs.tail } := by
  rw [step, cycle, if_neg (by simp [hr]), if_pos (by simp [hi, hl])]
  rfl

/-- Settles O14: the hardware interrupt is trap entry of vector 1 once the boundary is passed. -/
theorem stepTakesHardwareInterrupt : Obligations.StepTakesHardwareInterrupt := by
  intro s hr hi hl hpush
  obtain ⟨t, ht⟩ := exists_trapEnter (s := { s with inputs := s.inputs.tail }) hpush
  exact ⟨t, (step_of_hwint hr hi hl).trans ht, trapEnter_trapped ht⟩

/-- Settles O29: loads by the read's fault, stores and pushes by `noMemory`, trap entries by `trapEnter_stops`. -/
theorem accessWithoutResultStops : Obligations.AccessWithoutResultStops := by
  refine ⟨fun cc s hc => ⟨?_, ?_, ?_, ?_, ?_, ?_, ?_⟩, fun i s hp => ?_, fun s hr hi hl => ?_⟩
  · intro a addr f hp hf
    exact (exec_of_runs (.ld cc a addr) hc (not_privileged_of_dest_eq rfl hp)).trans (load_of_error hf _)
  · intro a b off f hp hf
    exact (exec_of_runs (.ldr cc a b off) hc (not_privileged_of_dest_eq rfl hp)).trans (load_of_error hf _)
  · intro a f ha hp hf
    exact (exec_of_runs (.pop cc a) hc (not_privileged_of_dest_eq rfl hp)).trans
      ((if_neg ha).trans (load_of_error hf _))
  · intro a addr hb
    exact (exec_of_runs (.st cc a addr) hc (not_privileged_of_dest nofun)).trans (store_of_not_backs hb _)
  · intro a b off hb
    exact (exec_of_runs (.str cc a b off) hc (not_privileged_of_dest nofun)).trans (store_of_not_backs hb _)
  · intro a ha hb
    exact (exec_of_runs (.push cc a) hc (not_privileged_of_dest nofun)).trans
      ((if_neg ha).trans (push_of_not_backs hb _))
  · rw [exec_of_core_int (.int cc) rfl hc]
    exact trapEnter_stops _ _ s
  · rw [exec_of_privileged hp]
    exact trapEnter_stops _ _ s
  · rw [step_of_hwint hr hi hl]
    exact trapEnter_stops _ _ { s with inputs := s.inputs.tail }

/-! ### The step -/

/-- Settles O12, by `Machine.step_of_decode`. -/
theorem stepRunsDecodedInstruction : Obligations.StepRunsDecodedInstruction := fun _ _ _ => step_of_decode

/-- At a quiet boundary a fetch without a result stops the step (R64, R132). -/
theorem Machine.step_of_fetch_error {s : State} {f : Fault} (hq : QuietBoundary s) (hf : s.mem.read s.pc = .error f) :
    step s = .fault f := by
  rw [step_of_quiet hq]
  exact load_of_error (s := s.passBoundary) hf _

/-- At a quiet boundary a rejected word is refused (R134). -/
theorem Machine.step_of_rejected {s : State} {w : Word} {r : Reject} (hq : QuietBoundary s)
    (hw : s.mem.read s.pc = .ok w) (hd : decode w = .rejected r) : step s = refuseWord w r := by
  have hr : s.passBoundary.mem.read s.passBoundary.pc = .ok w := hw
  rw [step_of_quiet hq, cycleInstr, fetch, load_of_read hr, hd]

/-- Settles O13: the fetch comes first, and the decoder's answer decides what follows. -/
theorem stepStopsOnUnreadableOrRejectedWord : Obligations.StepStopsOnUnreadableOrRejectedWord := fun _ hq =>
  ⟨fun _ => step_of_fetch_error hq, fun _ => step_of_rejected hq, fun _ => step_of_rejected hq,
    fun _ => step_of_rejected hq⟩

/-- Settles O4: the reset event answers the Start state. -/
theorem resetEventClearsRegisters : Obligations.ResetEventClearsRegisters := by
  intro s hr
  refine ⟨s.passBoundary.start, if_pos hr, fun r => ?_, rfl, rfl, rfl⟩
  cases r with
  | r n => exact State.reset_gpr_getElem n
  | status => exact State.reset_readReg .status
  | sp | lr | pc => rfl

/-- Settles O2: every address is backed and no cell listed, so no read, nor the first fetch, finds a value. -/
theorem resetMemoryHoldsNoValue : Obligations.ResetMemoryHoldsNoValue := by
  have hread (a : Word) : State.reset.mem.read a = .error (.noValue a) := by
    have hb : State.reset.mem.backs a.toNat = true := by
      simpa [Memory.backs, State.reset] using a.isLt
    rw [Memory.read, cellIndex_eq, if_pos hb]
    rfl
  exact ⟨hread, step_of_fetch_error ⟨rfl, by decide⟩ (hread 0#32)⟩

end Sys2Proof

/-! ### The parts of a trap entry and of a frame, by name -/

namespace Sys2Proof.Safety

open Sys2Proof.Machine

section Trapped

variable {vec : Word} {clearI : Bool} {s t : State} (h : Trapped vec clearI s t)

include h

theorem Trapped.sp_eq : t.sp = s.sp - 2#32 := h.1

theorem Trapped.read_pc : t.mem.read (s.sp - 1#32) = .ok s.pc := h.2.1

theorem Trapped.read_lr : t.mem.read (s.sp - 2#32) = .ok s.lr := by
  obtain ⟨-, -, hlr, -⟩ := h
  exact hlr

theorem Trapped.status_eq : t.status = { s.status with i := s.status.i && !clearI, m := false } := by
  obtain ⟨-, -, -, -, -, hstatus, -⟩ := h
  exact hstatus

theorem Trapped.mode_eq : t.status.m = false := by rw [h.status_eq]

theorem Trapped.mask_kept (hk : clearI = false := by rfl) : t.status.i = s.status.i := by rw [h.status_eq]; simp [hk]

theorem Trapped.mask_cleared (hk : clearI = true := by rfl) : t.status.i = false := by rw [h.status_eq]; simp [hk]

theorem Trapped.pc_eq : t.pc = vec := by
  obtain ⟨-, -, -, -, -, -, hpc, -⟩ := h
  exact hpc

theorem Trapped.lr_eq : t.lr = s.lr := by
  obtain ⟨-, -, -, -, -, -, -, hlr, -⟩ := h
  exact hlr

theorem Trapped.gpr_eq : t.gpr = s.gpr := by
  obtain ⟨-, -, -, -, -, -, -, -, hgpr, -⟩ := h
  exact hgpr

theorem Trapped.inputs_eq : t.inputs = s.inputs := by
  obtain ⟨-, -, -, -, -, -, -, -, -, hin⟩ := h
  exact hin

end Trapped

section RegFrame

variable {i : Instr} {s t : State} (h : RegFrame i s t)

include h

theorem RegFrame.lr_eq (hlr : i.core.dest ≠ some .lr) (hpc : i.core.dest ≠ some .pc) : t.lr = s.lr := by
  obtain ⟨-, -, hkeep, -⟩ := h
  exact hkeep hlr hpc

theorem RegFrame.status_eq (hd : i.core.dest ≠ some .status) (hs : i.core.setsFlags = false) : t.status = s.status := by
  obtain ⟨-, -, -, hstatus, -⟩ := h
  exact hstatus hd hs

theorem RegFrame.mask_mode_eq (hd : i.core.dest ≠ some .status) :
    t.status.i = s.status.i ∧ t.status.m = s.status.m := by
  obtain ⟨-, -, -, -, himask, -⟩ := h
  exact himask hd

theorem RegFrame.inputs_eq : t.inputs = s.inputs := by
  obtain ⟨-, -, -, -, -, hin⟩ := h
  exact hin

end RegFrame

end Sys2Proof.Safety

/-! ### What an instruction changes, by its kind -/

namespace Sys2Proof.Machine

open Sys2Proof.Safety

/-- The control registers where no trap is taken: pc changes only as the destination, and then lr links (R31, D34). -/
def ControlFrame (i : Instr) (s t : State) : Prop :=
  (i.core.dest ≠ some .pc → t.pc = s.pc) ∧ (i.core.dest = some .pc → t.lr = s.pc)

/-- A destination written, after sp moved if the instruction is a POP, keeps every other register. -/
theorem writeReg_frames {i : Instr} {s : State} {a : Reg} {sp v : Word} (hd : i.core.dest = some a)
    (hsp : (∀ b, i.core ≠ .pop b) → sp = s.sp) :
    RegFrame i s (State.writeReg { s with sp := sp } a v) ∧
      ControlFrame i s (State.writeReg { s with sp := sp } a v) := by
  obtain ⟨hgpr, hstatus, hsp', hlr, hpc, -, hin⟩ := writeReg_writesDest a v { s with sp := sp }
  have dest_ne {r : Reg} (h : i.core.dest ≠ some r) : a ≠ r := fun e => h (e ▸ hd)
  have hst (h : i.core.dest ≠ some .status) := hstatus.trans (if_neg (dest_ne h))
  refine ⟨⟨fun n h => ?_, fun h _ hp => ?_, fun h1 h2 => ?_, fun h _ => hst h, fun h => ?_, hin⟩,
    fun h => ?_, fun h => ?_⟩
  · rw [hgpr, if_neg (dest_ne h)]
  · rw [hsp', if_neg (dest_ne h)]; exact hsp hp
  · rw [hlr, if_neg (dest_ne h1), if_neg (dest_ne h2)]
  · rw [hst h]; exact ⟨rfl, rfl⟩
  · rw [hpc, if_neg (dest_ne h)]
  · obtain rfl : a = .pc := Option.some.inj (hd.symm.trans h)
    exact hlr

/-- The ALU's writes keep every register but its destination, and the flags unless `Sb = 1` (R190). -/
theorem aluWrite_frames {i : Instr} {s : State} {op : AluOp} {m : AluMods} {a b : Reg} {src : AluSrc} {x y : Word}
    (hi : i.core = .alu op m a b src) :
    RegFrame i s (aluWrite op m a x y s) ∧ ControlFrame i s (aluWrite op m a x y s) := by
  obtain ⟨hgpr, hstatus, hsp, hlr, hpc, -, hin⟩ :=
    aluWrite_writes (m := m) (a := a) (s := s) (op := op) (x := x) (y := y) rfl rfl rfl
  have dest_iff (r : Reg) : i.core.dest = some r ↔ m.loadn = false ∧ a = r := by rw [hi, alu_dest_eq_some]
  have hsets : i.core.setsFlags = m.set := by rw [hi]; rfl
  simp only [← dest_iff] at hgpr hstatus hsp hlr hpc
  refine ⟨⟨fun n h => ?_, fun h _ _ => ?_, fun h1 h2 => ?_, fun h hs => ?_, fun h => ?_, hin⟩, fun h => ?_, fun h => ?_⟩
  · rw [hgpr, if_neg h]
  · rw [hsp, if_neg h]
  · rw [hlr, if_neg h1, if_neg h2]
  · rw [hstatus, if_neg (by simp [← hsets, hs]), if_neg h]
  · rw [hstatus, if_neg h]
    split <;> exact ⟨rfl, rfl⟩
  · rw [hpc, if_neg h]
  · rw [hlr, if_neg (by simp [h]), if_pos h]

/-- An instruction that stores has no destination. -/
theorem dest_of_storeAddr {s : State} {op : CoreOp} {ea : Word} (h : storeAddr s op = some ea) : op.dest = none := by
  cases op with
  | st | str | push => rfl
  | _ => cases h

/-- An instruction that stores takes no trap. -/
theorem not_privileged_of_storeAddr {i : Instr} {s : State} {ea : Word} (h : storeAddr s i.core = some ea) :
    ¬ Privileged i s := not_privileged_of_dest (by rw [dest_of_storeAddr h]; nofun)

/-- INT stores by trap entry only. -/
theorem ne_int_of_storeAddr {s : State} {op : CoreOp} {ea : Word} (h : storeAddr s op = some ea) : op ≠ .int := by
  rintro rfl
  cases h

/-- A store keeps every register but the sp of a PUSH. -/
theorem store_frames {i : Instr} {s : State} {ea sp : Word} {mem : Memory} (hs : storeAddr s i.core = some ea)
    (hsp : (∀ b, i.core ≠ .push b) → sp = s.sp) :
    RegFrame i s { s with sp := sp, mem := mem } ∧ ControlFrame i s { s with sp := sp, mem := mem } := by
  have hd := dest_of_storeAddr hs
  exact ⟨⟨fun _ _ => rfl, fun _ hpu _ => hsp hpu, fun _ _ => rfl, fun _ _ => rfl, fun _ => ⟨rfl, rfl⟩, rfl⟩,
    fun _ => rfl, fun h => by rw [hd] at h; cases h⟩

/-- Everything an instruction that answers a next state can be: one that changes nothing (a false condition, NOP), a trap
entry of vector 3 or 2, or an executed instruction that keeps its frame. -/
theorem exec_effect {i : Instr} {s t : State} (h : exec i s = .next t) :
    (t = s ∧ (condHolds i.cond s.status = false ∨ i.core = .nop)) ∨
    (Privileged i s ∧ Trapped 3#32 false s t) ∨
    (condHolds i.cond s.status = true ∧ i.core = .int ∧ Trapped 2#32 false s t) ∨
    (condHolds i.cond s.status = true ∧ ¬ Privileged i s ∧ i.core ≠ .int ∧ RegFrame i s t ∧ ControlFrame i s t) := by
  cases exec_cases h with
  | skip hc ht => exact .inl ⟨ht, .inl hc⟩
  | priv hp h => exact .inr (.inl ⟨hp, trapEnter_trapped h⟩)
  | int hc hi h => exact .inr (.inr (.inl ⟨hc, hi, trapEnter_trapped h⟩))
  | nop hi ht => exact .inl ⟨ht, .inr hi⟩
  | dest hc a v hd hf hst hn hnp hi hpu ht =>
    exact .inr (.inr (.inr ⟨hc, not_privileged_of_dest_eq hd hnp, hi, ht ▸ writeReg_frames hd fun _ => rfl⟩))
  | pop hc a v hi ha hr hnp ht =>
    have hd : i.core.dest = some a := by rw [hi]; rfl
    exact .inr (.inr (.inr ⟨hc, not_privileged_of_dest_eq hd hnp, by rw [hi]; nofun,
      ht ▸ writeReg_frames hd fun h => absurd hi (h a)⟩))
  | alu hc op m a b src hi hnp ht =>
    have hp : ¬ Privileged i s := by
      rintro ⟨-, hd, hm⟩
      rw [hi, alu_dest_eq_some] at hd
      exact (hnp hd.1).1 ⟨hd.2, hm⟩
    exact .inr (.inr (.inr ⟨hc, hp, by rw [hi]; nofun, ht ▸ aluWrite_frames hi⟩))
  | store hc ea v m hst hd hp hw ht =>
    exact .inr (.inr (.inr ⟨hc, not_privileged_of_storeAddr hst, ne_int_of_storeAddr hst,
      ht ▸ store_frames hst fun _ => rfl⟩))
  | push hc a hi ha m hw ht =>
    have hst : storeAddr s i.core = some (s.sp - 1#32) := by rw [hi]; rfl
    exact .inr (.inr (.inr ⟨hc, not_privileged_of_storeAddr hst, ne_int_of_storeAddr hst,
      ht ▸ store_frames hst fun h => absurd hi (h a)⟩))

/-- Where no trap is taken an instruction keeps its frame, executed or not. -/
theorem exec_frames {i : Instr} {s t : State} (h : exec i s = .next t) (hint : i.core ≠ .int) (hp : ¬ Privileged i s) :
    RegFrame i s t ∧ (i.core.dest ≠ some .pc → t.pc = s.pc) := by
  rcases exec_effect h with ⟨rfl, -⟩ | ⟨hp', -⟩ | ⟨-, hi, -⟩ | ⟨-, -, -, hf, hpc, -⟩
  · exact ⟨⟨fun _ _ => rfl, fun _ _ _ => rfl, fun _ _ => rfl, fun _ _ => rfl, fun _ => ⟨rfl, rfl⟩, rfl⟩, fun _ => rfl⟩
  · exact absurd hp' hp
  · exact absurd hi hint
  · exact ⟨hf, hpc⟩

/-! ### What an instruction does to memory -/

/-- Without a store and without a trap memory stays as it is. -/
theorem exec_mem_of_storeless {i : Instr} {s t : State} (h : exec i s = .next t) (hst : storeAddr s i.core = none)
    (hint : i.core ≠ .int) (hp : ¬ Privileged i s) : t.mem = s.mem := by
  cases exec_cases h with
  | skip hc ht => rw [ht]
  | priv hp' h => exact absurd hp' hp
  | int hc hi h => exact absurd hi hint
  | nop hi ht => rw [ht]
  | dest hc a v hd hf hs hn hnp hi hpu ht => rw [ht, State.writeReg_mem]
  | pop hc a v hi ha hr hnp ht => rw [ht, State.writeReg_mem]
  | alu hc op m a b src hi hnp ht => rw [ht, aluWrite_mem]
  | store hc ea v m hs hd hp hw ht => rw [hst] at hs; cases hs
  | push hc a hi ha m hw ht => rw [hi] at hst; cases hst

/-- An instruction that stores is not executed, or writes its datum at its address. -/
theorem exec_mem_of_store {i : Instr} {s t : State} {ea : Word} (h : exec i s = .next t)
    (hst : storeAddr s i.core = some ea) :
    (condHolds i.cond s.status = false ∧ t = s) ∨
    (condHolds i.cond s.status = true ∧ ∃ v, storeData s i.core = some v ∧ StoresCell ea v s t) := by
  cases exec_cases h with
  | skip hc ht => exact .inl ⟨hc, ht⟩
  | priv hp h => exact absurd hp (not_privileged_of_storeAddr hst)
  | int hc hi h => exact absurd hi (ne_int_of_storeAddr hst)
  | nop hi ht => rw [hi] at hst; cases hst
  | dest hc a v hd hf hs hn hnp hi hpu ht => rw [hst] at hs; cases hs
  | pop hc a v hi ha hr hnp ht => rw [hi] at hst; cases hst
  | alu hc op m a b src hi hnp ht => rw [hi] at hst; cases hst
  | store hc ea' v m hs hd hp hw ht =>
    obtain rfl := Option.some.inj (hst.symm.trans hs)
    exact .inr ⟨hc, v, hd, write_storesCell (ht ▸ hw)⟩
  | push hc a hi ha m hw ht =>
    rw [hi] at hst ⊢
    obtain rfl := Option.some.inj hst
    exact .inr ⟨hc, _, rfl, write_storesCell (ht ▸ hw)⟩

end Sys2Proof.Machine

namespace Sys2Proof

open Sys2Proof.Machine Sys2Proof.Safety

/-! ### Frames -/

/-- Settles O43: `exec_frames` for the registers, `exec_mem_of_storeless` for memory. -/
theorem registerOnlyFrame : Obligations.RegisterOnlyFrame := by
  intro i s t hst hint hp h
  have hmem := exec_mem_of_storeless h hst hint hp
  exact ⟨(exec_frames h hint hp).1, by rw [hmem], fun x => by rw [hmem]⟩

/-- Settles O44: `exec_frames` for the registers, `exec_mem_of_store` for memory. -/
theorem storeFrame : Obligations.StoreFrame := by
  intro i s t ea hst h
  obtain ⟨hf, hpc⟩ := exec_frames h (ne_int_of_storeAddr hst) (not_privileged_of_storeAddr hst)
  refine ⟨hf, hpc (by rw [dest_of_storeAddr hst]; nofun), ?_⟩
  rcases exec_mem_of_store h hst with ⟨-, rfl⟩ | ⟨-, v, -, hmap, -, hother⟩
  · exact ⟨rfl, fun _ _ => rfl⟩
  · exact ⟨hmap, hother⟩

/-- Settles O45: both are trap entries, of vectors 2 and 3. -/
theorem trapFrame : Obligations.TrapFrame := by
  refine fun i s t h => ⟨fun hi hc => ?_, fun hp => ?_⟩
  · rw [exec_of_core_int i hi hc] at h
    exact trapEnter_trapped h
  · rw [exec_of_privileged hp] at h
    exact trapEnter_trapped h

/-! ### Rules of the whole machine -/

/-- The reset event answers the Start state whatever else the boundary holds (R239, R270). -/
theorem Machine.step_of_reset {s : State} (hr : s.boundary.reset = true) : step s = .next s.passBoundary.start :=
  if_pos hr

/-- Settles O49: a trap entry keeps the flags, and so does an executed instruction that does not write them. -/
theorem conditionFlagsWrittenOnlyAsStated : Obligations.ConditionFlagsWrittenOnlyAsStated := by
  intro i s t h hne
  rcases exec_effect h with ⟨rfl, -⟩ | ⟨-, htrap⟩ | ⟨-, -, htrap⟩ | ⟨hc, hp, -, hf, -⟩
  · exact absurd rfl hne
  · exact absurd (by rw [htrap.status_eq]) hne
  · exact absurd (by rw [htrap.status_eq]) hne
  · refine ⟨hc, hp, ?_⟩
    by_contra hno
    rw [not_or, Bool.not_eq_true] at hno
    exact hne (by rw [hf.status_eq hno.2 hno.1])

/-- Settles O48: as the destination, by the link of a write of pc, and in no other way. -/
theorem linkRegisterRule : Obligations.LinkRegisterRule := by
  refine ⟨fun i s t h hne => ?_, fun i s t h hc hd => ?_, fun vec clearI s t h => ?_, fun _ => rfl⟩
  · rcases exec_effect h with ⟨rfl, -⟩ | ⟨-, htrap⟩ | ⟨-, -, htrap⟩ | ⟨hc, -, -, hf, -, hlink⟩
    · exact absurd rfl hne
    · exact absurd htrap.lr_eq hne
    · exact absurd htrap.lr_eq hne
    · by_cases hlr : i.core.dest = some .lr
      · exact ⟨hc, .inl hlr⟩
      · by_cases hpc : i.core.dest = some .pc
        · exact ⟨hc, .inr ⟨hpc, hlink hpc⟩⟩
        · exact absurd (hf.lr_eq hlr hpc) hne
  · rcases exec_effect h with ⟨-, hc' | hi⟩ | ⟨hp, -⟩ | ⟨-, hi, -⟩ | ⟨-, -, -, -, -, hlink⟩
    · rw [hc] at hc'; cases hc'
    · rw [hi] at hd; cases hd
    · exact absurd hp (not_privileged_of_dest (by rw [hd]; nofun))
    · rw [hi] at hd; cases hd
    · exact hlink hd
  · exact ⟨(trapEnter_trapped h).lr_eq, (trapEnter_trapped h).read_lr⟩

/-- Settles O50: the reset and the trap entries by what they are, every other instruction by its frame. -/
theorem vectorTable : Obligations.VectorTable := by
  refine ⟨rfl, fun s t h hr => ?_, fun s t h hr hi hl => ?_, fun i s t h hi hc => ?_, fun i s t h hp => ?_,
    fun i s t h hne => ?_⟩
  · rw [step_of_reset hr] at h
    cases h; rfl
  · rw [step_of_hwint hr hi hl] at h
    exact (trapEnter_trapped h).pc_eq
  · exact ((trapFrame i s t h).1 hi hc).pc_eq
  · exact ((trapFrame i s t h).2 hp).pc_eq
  · rcases exec_effect h with ⟨rfl, -⟩ | ⟨hp, -⟩ | ⟨hc, hi, -⟩ | ⟨hc, -, -, -, hpc, -⟩
    · exact absurd rfl hne
    · exact ⟨hp.1, .inr (.inr hp)⟩
    · exact ⟨hc, .inr (.inl hi)⟩
    · exact ⟨hc, .inl (not_not.mp (mt hpc hne))⟩

/-- Settles O51: each is a trap entry or the Start event, and neither looks at the mode. -/
theorem entryIsSupervisorMode : Obligations.EntryIsSupervisorMode := by
  refine ⟨fun s t h => (trapEnter_trapped h).mode_eq, fun s t h => (trapEnter_trapped h).mode_eq,
    fun s t h => (trapEnter_trapped h).mode_eq, fun _ => rfl, fun s t h hr => ?_, fun s t h hi hl => ?_,
    fun i s t h hi hc => ((trapFrame i s t h).1 hi hc).mode_eq, fun i s t h hp => ((trapFrame i s t h).2 hp).mode_eq,
    fun u s => ⟨rfl, rfl, rfl, rfl⟩⟩
  · rw [step_of_reset hr] at h
    cases h; rfl
  · cases hr : s.boundary.reset with
    | true => rw [step_of_reset hr] at h; cases h; rfl
    | false => rw [step_of_hwint hr hi hl] at h; exact (trapEnter_trapped h).mode_eq

/-- What an instruction can do to `status.I` and the mode: enter a trap, keep both, or, in supervisor mode, write status
(R245). -/
theorem Machine.exec_mask_mode {i : Instr} {s t : State} (h : exec i s = .next t) :
    (∃ vec, (vec = 2#32 ∨ vec = 3#32) ∧ Trapped vec false s t) ∨
    (t.status.i = s.status.i ∧ t.status.m = s.status.m) ∨
    (i.core.dest = some .status ∧ condHolds i.cond s.status = true ∧ s.status.m = false) := by
  rcases exec_effect h with ⟨rfl, -⟩ | ⟨-, htrap⟩ | ⟨-, -, htrap⟩ | ⟨hc, hp, -, hf, -⟩
  · exact .inr (.inl ⟨rfl, rfl⟩)
  · exact .inl ⟨_, .inr rfl, htrap⟩
  · exact .inl ⟨_, .inl rfl, htrap⟩
  · by_cases hd : i.core.dest = some .status
    · exact .inr (.inr ⟨hd, hc, Bool.not_eq_true _ ▸ fun hm => hp ⟨hc, hd, hm⟩⟩)
    · exact .inr (.inl (hf.mask_mode_eq hd))

/-- Settles O46: the last clause goes through the three kinds of step and what an instruction can do to `status.I`. -/
theorem interruptMaskRule : Obligations.InterruptMaskRule := by
  refine ⟨fun s hr hi hl hpush => ?_, fun s b rest hi hin => ?_, fun s t h hne => ?_⟩
  · obtain ⟨t, ht, htrap⟩ := stepTakesHardwareInterrupt s hr hi hl hpush
    exact ⟨t, ht, htrap.pc_eq, htrap.mask_cleared⟩
  · simp [step, cycle, hi, State.boundary, hin, State.passBoundary]
  · rcases step_cases h with ⟨hr, rfl⟩ | ⟨-, hi, hl, h⟩ | ⟨hq, w, i, hw, hd, h⟩
    · exact .inl ⟨hr, rfl⟩
    · exact .inr (.inl ⟨hi, hl, (trapEnter_trapped h).mask_cleared⟩)
    · rcases exec_mask_mode h with ⟨_, -, htrap⟩ | ⟨hmask, -⟩ | hwrite
      · exact absurd htrap.mask_kept hne
      · exact absurd hmask hne
      · exact .inr (.inr ⟨hq, w, i, hw, hd, hwrite⟩)

/-- Settles O47: the reset and the trap entries leave supervisor mode, every other instruction keeps the mode unless it
writes status, and that needs supervisor mode. -/
theorem modeIsEnteredAndLeftOnlyAsStated : Obligations.ModeIsEnteredAndLeftOnlyAsStated := by
  intro s t h
  rcases step_cases h with ⟨hr, rfl⟩ | ⟨-, hi, hl, h⟩ | ⟨hq, w, i, hw, hd, h⟩
  · exact ⟨fun _ => nofun, fun _ _ => .inl hr, fun _ hq => absurd hr (by simp [hq.1])⟩
  · have htrap := trapEnter_trapped h
    exact ⟨fun _ hu => absurd hu (by simp [htrap.mode_eq]), fun _ _ => .inr (.inl ⟨hi, hl, htrap⟩),
      fun _ hq => absurd ⟨hi, hl⟩ hq.2⟩
  · rcases exec_mask_mode h with ⟨vec, hvec, htrap⟩ | ⟨hmask, hmode⟩ | ⟨hdest, hc, hsup⟩
    · exact ⟨fun _ hu => absurd hu (by simp [htrap.mode_eq]), fun _ _ => .inr (.inr ⟨vec, hvec, htrap⟩),
        fun _ _ => htrap.mask_kept⟩
    · exact ⟨fun hs hu => absurd (hmode.symm.trans hu) (by simp [hs]),
        fun hu hs => absurd (hmode.symm.trans hs) (by simp [hu]), fun _ _ => hmask⟩
    · have not_user : s.status.m ≠ true := by simpa using hsup
      exact ⟨fun _ _ => ⟨hq, w, i, hw, hd, hdest, hc⟩, fun hu => absurd hu not_user, fun hu => absurd hu not_user⟩

end Sys2Proof

/-! ### The ALU's results and flags -/

namespace Sys2Proof.Machine

open Sys2Proof.Safety

/-- Where an ALU instruction runs it answers the writes of its result and flags (R190). -/
theorem exec_alu_writes (op : AluOp) {cc : Cond} {m : AluMods} {a b : Reg} {src : AluSrc} {s : State} {res : Word}
    {c v : Bool} (h : AluRuns cc m a s)
    (hr : aluResult op (aluOperands m b src s).1 (aluOperands m b src s).2 s.status.c = res)
    (hc : aluCarry op (aluOperands m b src s).1 (aluOperands m b src s).2 s.status = c)
    (hv : aluOverflow op (aluOperands m b src s).1 (aluOperands m b src s).2 s.status = v) :
    ∃ t, exec (.alu op cc m a b src) s = .next t ∧ AluWrites m a res c v s t :=
  ⟨_, exec_alu_of_runs h, aluWrite_writes hr hc hv⟩

/-! ### Sums and differences (R194) -/

/-- The exact sum narrowed is the sum modulo `2^32`. -/
theorem ofNat_exactSum (x y : Word) (cin : Bool) :
    BitVec.ofNat 32 (exactSum x y cin) = x + y + BitVec.ofNat 32 cin.toNat := by
  simp [exactSum, BitVec.ofNat_add]

/-- R194's overflow of a sum with carry is the sign rule: the operands' signs agree and the result's differs. -/
theorem signedOverflow_add (x y : Word) (cin : Bool) :
    signedOverflow (x.toInt + y.toInt + cin.toInt) =
      ((x.msb == y.msb) && ((x + y + BitVec.ofNat 32 cin.toNat).msb != x.msb)) := by
  have hx := x.isLt
  have hy := y.isLt
  have hsum : (x + y + BitVec.ofNat 32 cin.toNat).toNat = (x.toNat + y.toNat + cin.toNat) % 2 ^ 32 := by simp
  rw [Bool.eq_iff_iff]
  simp only [signedOverflow, BitVec.toInt_eq_toNat_cond, BitVec.msb_eq_decide, hsum, Bool.and_eq_true, Bool.or_eq_true,
    beq_iff_eq, bne_iff_ne, ne_eq, decide_eq_true_eq, decide_eq_decide]
  cases cin <;> simp only [Bool.toInt, Bool.toNat, cond_true, cond_false] <;> omega

/-- The complement of a word, as a signed number. -/
theorem toInt_not (y : Word) : (~~~y).toInt = -y.toInt - 1 := by
  have hy := y.isLt
  have hnot : (~~~y).toNat = 2 ^ 32 - 1 - y.toNat := BitVec.toNat_not
  rw [BitVec.toInt_eq_toNat_cond, BitVec.toInt_eq_toNat_cond]
  omega

/-- A difference with borrow is a sum with the complement and the carry (R207, R208). -/
theorem sub_eq_add_not (x y : Word) (cin : Bool) :
    x + ~~~y + BitVec.ofNat 32 cin.toNat = x - y - BitVec.ofNat 32 (!cin).toNat := by
  cases cin <;> simp <;> bv_omega

/-- There is no borrow exactly when the sum with the complement carries (R194). -/
theorem carryOut_sub (x y : Word) (cin : Bool) :
    carryOut (exactSum x (~~~y) cin) = decide (y.toNat + (!cin).toNat ≤ x.toNat) := by
  have hy : (~~~y).toNat = 4294967295 - y.toNat := by simp
  have := y.isLt
  rw [carryOut, exactSum, hy, decide_eq_decide]
  cases cin <;> simp <;> omega

/-- R194's overflow of a difference: the operands' signs differ and the result's differs from the first's. -/
theorem signedOverflow_sub (x y : Word) (cin : Bool) :
    signedOverflow (x.toInt - y.toInt - (1 - cin.toInt)) =
      ((x.msb != y.msb) && ((x - y - BitVec.ofNat 32 (!cin).toNat).msb != x.msb)) := by
  have hsum : x.toInt - y.toInt - (1 - cin.toInt) = x.toInt + (~~~y).toInt + cin.toInt := by rw [toInt_not]; omega
  have hmsb : (~~~y).msb = !y.msb := by simp
  rw [hsum, signedOverflow_add, sub_eq_add_not, hmsb]
  cases x.msb <;> cases y.msb <;> simp

/-! ### The operations, one equation each -/

section Operations

variable (x y : Word) (c : Bool) (f : Status)

theorem aluResult_add : aluResult .add x y c = x + y := (ofNat_exactSum x y false).trans (by simp)

theorem aluResult_addc : aluResult .addc x y c = x + y + BitVec.ofNat 32 c.toNat := ofNat_exactSum x y c

theorem aluResult_sub : aluResult .sub x y c = x - y :=
  (ofNat_exactSum x (~~~y) true).trans ((sub_eq_add_not x y true).trans (by simp))

theorem aluResult_subb : aluResult .subb x y c = x - y - BitVec.ofNat 32 (!c).toNat :=
  (ofNat_exactSum x (~~~y) c).trans (sub_eq_add_not x y c)

theorem aluResult_neg : aluResult .neg x y c = ~~~y + 1#32 := by rw [aluResult, BitVec.zero_sub, BitVec.neg_eq_not_add]

theorem aluResult_shl : aluResult .shl x y c = x <<< y.toNat := shiftLeft_eq x y.toNat

theorem aluResult_shr : aluResult .shr x y c = x >>> y.toNat := shiftRight_eq x y.toNat

theorem aluResult_ashr : aluResult .ashr x y c = x.sshiftRight y.toNat := shiftRightArith_eq x y.toNat

theorem aluCarry_add : aluCarry .add x y f = decide (2 ^ 32 ≤ x.toNat + y.toNat) := rfl

theorem aluCarry_addc : aluCarry .addc x y f = decide (2 ^ 32 ≤ x.toNat + y.toNat + f.c.toNat) := rfl

theorem aluCarry_sub : aluCarry .sub x y f = decide (y.toNat ≤ x.toNat) := carryOut_sub x y true

theorem aluCarry_subb : aluCarry .subb x y f = decide (y.toNat + (!f.c).toNat ≤ x.toNat) := carryOut_sub x y f.c

theorem aluOverflow_add : aluOverflow .add x y f = ((x.msb == y.msb) && ((x + y).msb != x.msb)) := by
  simpa [aluOverflow] using signedOverflow_add x y false

theorem aluOverflow_addc :
    aluOverflow .addc x y f = ((x.msb == y.msb) && ((x + y + BitVec.ofNat 32 f.c.toNat).msb != x.msb)) :=
  signedOverflow_add x y f.c

theorem aluOverflow_sub : aluOverflow .sub x y f = ((x.msb != y.msb) && ((x - y).msb != x.msb)) := by
  simpa [aluOverflow] using signedOverflow_sub x y true

theorem aluOverflow_subb :
    aluOverflow .subb x y f = ((x.msb != y.msb) && ((x - y - BitVec.ofNat 32 (!f.c).toNat).msb != x.msb)) :=
  signedOverflow_sub x y f.c

end Operations

end Sys2Proof.Machine

namespace Sys2Proof

open Sys2Proof.Machine Sys2Proof.Safety

/-! ### The ALU operations: where each completes, and with what -/

/-- Settles O30: `opC` is the result, C and V are the free value. -/
theorem passMovesOpC : Obligations.PassMovesOpC := fun _ _ _ _ _ _ h => exec_alu_writes .pass h rfl rfl rfl

/-- Settles O31: the bits of the bit vector's own `&&&`. -/
theorem andIsBitwise : Obligations.AndIsBitwise := by
  intro cc m a b src s h
  obtain ⟨t, ht, hw⟩ := exec_alu_writes .and (b := b) (src := src) h rfl rfl rfl
  exact ⟨t, _, ht, hw, fun _ => BitVec.getLsbD_and⟩

/-- Settles O32: the bits of the bit vector's own `|||`. -/
theorem orIsBitwise : Obligations.OrIsBitwise := by
  intro cc m a b src s h
  obtain ⟨t, ht, hw⟩ := exec_alu_writes .or (b := b) (src := src) h rfl rfl rfl
  exact ⟨t, _, ht, hw, fun _ => BitVec.getLsbD_or⟩

/-- Settles O33: the bits of the bit vector's own `^^^`. -/
theorem xorIsBitwise : Obligations.XorIsBitwise := by
  intro cc m a b src s h
  obtain ⟨t, ht, hw⟩ := exec_alu_writes .xor (b := b) (src := src) h rfl rfl rfl
  exact ⟨t, _, ht, hw, fun _ => BitVec.getLsbD_xor⟩

/-- Settles O34: the bits of the bit vector's own complement. -/
theorem notComplementsOpC : Obligations.NotComplementsOpC := by
  intro cc m a b src s h
  obtain ⟨t, ht, hw⟩ := exec_alu_writes .not (b := b) (src := src) h rfl rfl rfl
  exact ⟨t, _, ht, hw, fun k hk => by simp [aluResult, hk]⟩

/-- Settles O35: the sum of O36 with carry 0 (`aluResult_add`, `aluOverflow_add`). -/
theorem addWrapsWithCarryAndOverflow : Obligations.AddWrapsWithCarryAndOverflow := fun _ _ _ _ _ _ h =>
  exec_alu_writes .add h (aluResult_add ..) (aluCarry_add ..) (aluOverflow_add ..)

/-- Settles O36: the carry added is the number of the old flag. -/
theorem addcAddsOldCarry : Obligations.AddcAddsOldCarry := by
  intro cc m a b src s h x y cin res
  have hcin : cin = s.status.c.toNat := by cases hc : s.status.c <;> simp [cin, hc]
  simp only [res, hcin]
  exact exec_alu_writes .addc h (aluResult_addc ..) (aluCarry_addc ..) (aluOverflow_addc ..)

/-- Settles O37: the difference of O38 with borrow 0 (`aluResult_sub`, `aluCarry_sub`, `aluOverflow_sub`). -/
theorem subWrapsWithNoBorrowCarry : Obligations.SubWrapsWithNoBorrowCarry := fun _ _ _ _ _ _ h =>
  exec_alu_writes .sub h (aluResult_sub ..) (aluCarry_sub ..) (aluOverflow_sub ..)

/-- Settles O38: the borrow subtracted is the number of the complemented old flag. -/
theorem subbSubtractsOldBorrow : Obligations.SubbSubtractsOldBorrow := by
  intro cc m a b src s h x y borrow res
  have hborrow : borrow = (!s.status.c).toNat := by cases hc : s.status.c <;> simp [borrow, hc]
  simp only [res, hborrow]
  exact exec_alu_writes .subb h (aluResult_subb ..) (aluCarry_subb ..) (aluOverflow_subb ..)

/-- Settles O39, by `aluResult_neg`. -/
theorem negNegatesOpC : Obligations.NegNegatesOpC := fun _ _ _ _ _ _ h =>
  exec_alu_writes .neg h (aluResult_neg ..) rfl rfl

/-- Settles O40: the bits of the bit vector's own shift. -/
theorem shlShiftsLeft : Obligations.ShlShiftsLeft := by
  intro cc m a b src s h x y cv
  obtain ⟨t, ht, hw⟩ := exec_alu_writes .shl h (aluResult_shl x y _) rfl rfl
  refine ⟨t, _, ht, hw, fun k hk => ?_⟩
  rw [BitVec.getLsbD_shiftLeft]
  simp only [hk, decide_true, Bool.true_and, ← decide_not, Nat.not_lt]

/-- Settles O41: the bits of the bit vector's own shift. -/
theorem shrShiftsRightLogically : Obligations.ShrShiftsRightLogically := by
  intro cc m a b src s h x y cv
  obtain ⟨t, ht, hw⟩ := exec_alu_writes .shr h (aluResult_shr x y _) rfl rfl
  exact ⟨t, _, ht, hw, fun k => by rw [BitVec.getLsbD_ushiftRight, Nat.add_comm]⟩

/-- Settles O42: the bits of the bit vector's own shift. -/
theorem ashrShiftsRightWithSign : Obligations.AshrShiftsRightWithSign := by
  intro cc m a b src s h x y cv
  obtain ⟨t, ht, hw⟩ := exec_alu_writes .ashr h (aluResult_ashr x y _) rfl rfl
  refine ⟨t, _, ht, hw, fun k hk => ?_⟩
  rw [BitVec.getLsbD_sshiftRight, Nat.add_comm k, decide_eq_false (Nat.not_le.mpr hk), Bool.not_false, Bool.true_and]

/-! ### Conditions after a compare -/

/-- The general registers are equal when each of them is. -/
theorem Machine.gpr_ext {s t : State} (h : ∀ n : Fin 12, t.gpr[n] = s.gpr[n]) : t.gpr = s.gpr :=
  Vector.ext fun k hk => h ⟨k, hk⟩

/-- After a difference the sign and the overflow disagree exactly when the first operand is less, as a signed number. -/
theorem Machine.msb_sub_ne_overflow (x y : Word) :
    ((x - y).msb != ((x.msb != y.msb) && ((x - y).msb != x.msb))) = decide (x.toInt < y.toInt) := by
  have hx := x.isLt
  have hy := y.isLt
  have hdiff : (x - y).toNat = (2 ^ 32 - y.toNat + x.toNat) % 2 ^ 32 := by simp
  rw [Bool.eq_iff_iff, bne_iff_ne, ne_eq, Bool.eq_iff_iff]
  simp only [BitVec.toInt_eq_toNat_cond, BitVec.msb_eq_decide, hdiff, Bool.and_eq_true, bne_iff_ne, ne_eq,
    decide_eq_true_eq, decide_eq_decide]
  omega

/-- Settles O16: the compare sets the flags of O37, and each condition reads them as its description says. -/
theorem conditionsAfterCompare : Obligations.ConditionsAfterCompare := by
  intro cc rev a b src s hc
  have hruns : AluRuns cc ⟨rev, true, true⟩ a s := ⟨hc, nofun, nofun⟩
  obtain ⟨t, ht, hgpr, hstatus, hsp, hlr, hpc, hmem, hin⟩ := subWrapsWithNoBorrowCarry cc _ a b src s hruns
  refine ⟨t, ht, ?_, by rw [hstatus]; rfl, by rw [hstatus]; rfl, ?_⟩
  · have unwritten {p : Prop} : ¬ (AluMods.loadn ⟨rev, true, true⟩ = false ∧ p) := fun h => nomatch h.1
    change (⟨t.gpr, t.status, t.sp, t.lr, t.pc, t.mem, t.inputs⟩ : State) = _
    rw [gpr_ext fun n => (hgpr n).trans (if_neg unwritten), hsp, if_neg unwritten, hlr, if_neg unwritten,
      if_neg unwritten, hpc, if_neg unwritten, hmem, hin]
  · intro x y
    have heq : x = y ↔ x.toNat = y.toNat := BitVec.toNat_inj.symm
    have heqi : x.toNat = y.toNat ↔ x.toInt = y.toInt := BitVec.toNat_inj.trans BitVec.toInt_inj.symm
    have hz : t.status.z = decide (x.toNat = y.toNat) := by
      rw [hstatus]
      exact decide_eq_decide.mpr ((BitVec.sub_eq_iff_eq_add.trans (by rw [BitVec.zero_add])).trans heq)
    have hc : t.status.c = decide (y.toNat ≤ x.toNat) := by rw [hstatus]; rfl
    have hlt : (t.status.n != t.status.v) = decide (x.toInt < y.toInt) := by
      rw [hstatus]
      exact msb_sub_ne_overflow x y
    have hge : (t.status.n == t.status.v) = !decide (x.toInt < y.toInt) := by rw [← hlt, bne, Bool.not_not]
    refine ⟨rfl, ?_, ?_, ?_, ?_, ?_, ?_, ?_, ?_, ?_, ?_⟩ <;>
      simp only [condHolds, hz, hc, hlt, hge, heq, ne_eq, Bool.and_eq_true, Bool.or_eq_true, Bool.not_eq_true',
        decide_eq_true_eq, decide_eq_false_iff_not] <;>
      omega

/-! ### Status as a number -/

/-- One bit of a number is the number masked to that bit. -/
theorem Machine.flagBit_getLsbD (v : Word) (k : Nat) : flagBit (v.getLsbD k) k = v &&& BitVec.twoPow 32 k := by
  have hpow : BitVec.ofNat 32 (2 ^ k) = BitVec.twoPow 32 k := BitVec.eq_of_toNat_eq (by simp [BitVec.toNat_twoPow])
  rw [BitVec.and_twoPow, flagBit, hpow]

/-- Settles O53: the six flags are six bits of the number. -/
theorem statusAsNumber : Obligations.StatusAsNumber := by
  refine ⟨?_, ?_, fun v => ?_⟩
  · rintro ⟨n, z, c, v, i, m⟩
    revert n z c v i m
    decide
  · rintro ⟨n, z, c, v, i, m⟩
    revert n z c v i m
    decide
  · change flagBit (v.getLsbD 5) 5 ||| flagBit (v.getLsbD 4) 4 ||| flagBit (v.getLsbD 3) 3 |||
      flagBit (v.getLsbD 2) 2 ||| flagBit (v.getLsbD 1) 1 ||| flagBit (v.getLsbD 0) 0 = v &&& 0x3F#32
    simp only [flagBit_getLsbD, ← BitVec.and_or_distrib_left]
    rfl

end Sys2Proof

/-! ### An instruction in the other mode -/

namespace Sys2Proof.Machine

open Sys2Proof.Safety

/-- The state with another mode. -/
def State.withMode (u : Bool) (s : State) : State := { s with status := { s.status with m := u } }

theorem condHolds_withMode (cc : Cond) (u : Bool) (s : State) :
    condHolds cc (s.withMode u).status = condHolds cc s.status := by cases cc <;> rfl

/-- Only status as a source shows the mode. -/
theorem readReg_withMode {r : Reg} (u : Bool) (s : State) (h : r ≠ .status) :
    (s.withMode u).readReg r = s.readReg r := by
  cases r with
  | status => exact absurd rfl h
  | _ => rfl

/-- Only status as a destination changes the mode. -/
theorem writeReg_withMode {r : Reg} (u : Bool) (s : State) (v : Word) (h : r ≠ .status) :
    (s.withMode u).writeReg r v = (s.writeReg r v).withMode u := by
  cases r with
  | status => exact absurd rfl h
  | _ => rfl

theorem aluSecond_withMode {src : AluSrc} (u : Bool) (s : State) (h : src ≠ .reg .status) :
    aluSecond (s.withMode u) src = aluSecond s src := by
  cases src with
  | reg c => exact readReg_withMode u s fun e => h (e ▸ rfl)
  | imm v => rfl

/-- The ALU's flags do not look at the mode and keep it (R193). -/
theorem aluFlags_mode (op : AluOp) (x y : Word) (u : Bool) (f : Status) :
    aluFlags op x y { f with m := u } = { aluFlags op x y f with m := u } := by cases op <;> rfl

/-- The ALU's writes but one of status commute with the mode. -/
theorem aluWrite_withMode {m : AluMods} {a : Reg} (op : AluOp) (x y : Word) (u : Bool) (s : State)
    (h : m.loadn = false → a ≠ .status) :
    aluWrite op m a x y (s.withMode u) = (aluWrite op m a x y s).withMode u := by
  have hflags := aluFlags_mode op x y u s.status
  unfold aluWrite
  cases hl : m.loadn <;> cases hs : m.set
  · exact writeReg_withMode u s _ (h hl)
  · change { (s.withMode u).writeReg a _ with status := aluFlags op x y { s.status with m := u } } = _
    rw [writeReg_withMode u s _ (h hl), hflags]
    rfl
  · rfl
  · change { s with status := aluFlags op x y { s.status with m := u } } = _
    rw [hflags]
    rfl

/-- An effect that names status neither as a destination nor as a source does in one mode what it does in the other. -/
theorem ownEffect_withMode {op : CoreOp} {s t : State} (u : Bool) (hd : op.dest ≠ some .status)
    (hs : Reg.status ∉ sources op) (hint : op ≠ .int) (h : ownEffect op s = .next t) :
    ownEffect op (s.withMode u) = .next (t.withMode u) := by
  have dest_ne {a : Reg} (ha : op.dest = some a) : a ≠ .status := fun e => hd (e ▸ ha)
  have source_ne {b : Reg} (hb : b ∈ sources op) : b ≠ .status := fun e => hs (e ▸ hb)
  cases op with
  | nop => cases h; rfl
  | ld a addr =>
    obtain ⟨v, hv, ht⟩ := load_eq_next.mp h
    cases ht
    exact load_eq_next.mpr ⟨v, hv, congrArg _ (writeReg_withMode u s v (dest_ne rfl))⟩
  | ldr a b off =>
    obtain ⟨v, hv, ht⟩ := load_eq_next.mp h
    cases ht
    have haddr : offsetAddr (s.withMode u) b off = offsetAddr s b off :=
      congrArg (· + _) (readReg_withMode u s (source_ne (.head _)))
    exact load_eq_next.mpr ⟨v, haddr ▸ hv, congrArg _ (writeReg_withMode u s v (dest_ne rfl))⟩
  | ldi a imm =>
    cases h
    exact congrArg _ (writeReg_withMode u s _ (dest_ne rfl))
  | st a addr =>
    obtain ⟨m, hm, ht⟩ := store_eq_next.mp h
    cases ht
    exact store_eq_next.mpr ⟨m, readReg_withMode u s (source_ne (.head _)) ▸ hm, rfl⟩
  | str a b off =>
    obtain ⟨m, hm, ht⟩ := store_eq_next.mp h
    cases ht
    have haddr : offsetAddr (s.withMode u) b off = offsetAddr s b off :=
      congrArg (· + _) (readReg_withMode u s (source_ne (.tail _ (.head _))))
    exact store_eq_next.mpr ⟨m, readReg_withMode u s (source_ne (.head _)) ▸ haddr ▸ hm, rfl⟩
  | push a =>
    have hread := readReg_withMode u s (source_ne (.head _))
    simp only [ownEffect] at h ⊢
    split_ifs at h ⊢ with ha
    obtain ⟨m, hm, ht⟩ := push_eq_next.mp h
    cases ht
    exact push_eq_next.mpr ⟨m, hread ▸ hm, rfl⟩
  | pop a =>
    simp only [ownEffect] at h ⊢
    split_ifs at h ⊢ with ha
    obtain ⟨v, hv, ht⟩ := load_eq_next.mp h
    cases ht
    exact load_eq_next.mpr ⟨v, hv, congrArg _ (writeReg_withMode u { s with sp := s.sp + 1#32 } v (dest_ne rfl))⟩
  | int => exact absurd rfl hint
  | alu op m a b src =>
    have hb : b ≠ .status := source_ne (by cases src <;> simp [sources])
    have hsrc : src ≠ .reg .status := by
      rintro rfl
      exact source_ne (.tail _ (.head _)) rfl
    have hB : operandB m b src (s.withMode u) = operandB m b src s := by
      rw [operandB, operandB, aluSecond_withMode u s hsrc, readReg_withMode u s hb]
    have hC : operandC m b src (s.withMode u) = operandC m b src s := by
      rw [operandC, operandC, aluSecond_withMode u s hsrc, readReg_withMode u s hb]
    simp only [ownEffect] at h ⊢
    split_ifs at h ⊢ with hrefused
    cases h
    rw [hB, hC, aluWrite_withMode _ _ _ _ _ fun hl => dest_ne (alu_dest_eq_some.mpr ⟨hl, rfl⟩)]

end Sys2Proof.Machine

namespace Sys2Proof

open Sys2Proof.Machine Sys2Proof.Safety

/-- Settles O52: the condition does not see the mode, INT discards it, and every other effect commutes with it. -/
theorem modeMattersOnlyToStatusOperands : Obligations.ModeMattersOnlyToStatusOperands := by
  intro i mode s t hd hs h
  change ∃ u, exec i (s.withMode mode) = .next u ∧ u.withMode false = t.withMode false
  have hcond := condHolds_withMode i.cond mode s
  cases hc : condHolds i.cond s.status with
  | false =>
    rw [exec_of_not_holds hc] at h
    cases h
    exact ⟨_, exec_of_not_holds (hcond.trans hc), rfl⟩
  | true =>
    rw [exec_of_runs i hc (not_privileged_of_dest hd)] at h
    rw [exec_of_runs i (hcond.trans hc) (not_privileged_of_dest hd)]
    by_cases hint : i.core = .int
    · rw [hint] at h ⊢
      exact ⟨t, h, rfl⟩
    · exact ⟨_, ownEffect_withMode mode hd hs hint h, rfl⟩

end Sys2Proof

namespace Sys2Proof

open Sys2Proof.Machine Sys2Proof.Safety

/-! ### Sequences -/

/-- An instruction that stores sets no flags (R193). -/
theorem Machine.setsFlags_of_storeAddr {s : State} {op : CoreOp} {ea : Word} (h : storeAddr s op = some ea) :
    op.setsFlags = false := by
  cases op with
  | alu => cases h
  | _ => rfl

/-- Settles O54: the cell at pc holds the word just stored, so the step decodes it. -/
theorem storeIsSeenByNextFetch : Obligations.StoreIsSeenByNextFetch := by
  refine ⟨fun i j s t w hst hdata hc h hq hd => ?_, fun vec clearI s t j h hq => ?_⟩
  · obtain ⟨hframe, hpc, -⟩ := storeFrame i s t s.pc hst h
    have hstatus : t.status = s.status :=
      hframe.status_eq (by rw [dest_of_storeAddr hst]; nofun) (setsFlags_of_storeAddr hst)
    have hq' : QuietBoundary t := by
      rw [QuietBoundary, State.boundary, hframe.inputs_eq, hstatus]
      exact hq
    rcases exec_mem_of_store h hst with ⟨hc', -⟩ | ⟨-, v, hv, -, hread, -⟩
    · rw [hc] at hc'; cases hc'
    · obtain rfl := Option.some.inj (hdata.symm.trans hv)
      rw [step_of_decode hq' (hpc ▸ hread) hd, hpc, hframe.inputs_eq]
  · have htrap := trapEnter_trapped h
    refine ⟨fun hv hd => ?_, fun hv hd => ?_⟩
    · have hread : t.mem.read t.pc = .ok s.pc := by rw [htrap.pc_eq, ← hv]; exact htrap.read_pc
      rw [step_of_decode hq hread hd, htrap.pc_eq, htrap.inputs_eq]
    · have hread : t.mem.read t.pc = .ok s.lr := by rw [htrap.pc_eq, ← hv]; exact htrap.read_lr
      rw [step_of_decode hq hread hd, htrap.pc_eq, htrap.inputs_eq]

/-- Settles O55: POP reads the cell PUSH wrote, and its increment undoes PUSH's decrement. -/
theorem popReturnsWhatPushPushed : Obligations.PopReturnsWhatPushPushed := by
  intro a n s ha hb
  obtain ⟨t, ht, ⟨-, hread, -⟩, -, hstatus, hsp, hlr, hpc, -⟩ := pushStoresBelowSp .none a s rfl ha hb
  have hpop : t.mem.read t.sp = .ok (s.readReg a) := by rw [hsp]; exact hread
  obtain ⟨u, hu, hgpr, hstatus', hsp', hlr', hpc', -⟩ := popLoadsAtSp .none (.r n) t _ rfl nofun nofun hpop
  refine ⟨t, u, ht, hu, (hgpr n).trans (if_pos rfl), ?_, hpc'.trans hpc, hlr'.trans hlr, hstatus'.trans hstatus⟩
  rw [hsp', if_neg nofun, hsp]
  exact BitVec.sub_add_cancel s.sp 1#32

/-- Settles O56: the two cells a trap entry pushed are popped in the reverse order. -/
theorem handlerReturnsByTwoPops : Obligations.HandlerReturnsByTwoPops := by
  refine ⟨fun vec clearI s p q hpush => ?_, fun cc s hc => exec_of_core_int (.int cc) rfl hc,
    fun i s hp => exec_of_privileged hp, fun s => step_of_hwint⟩
  obtain ⟨t, ht⟩ := exists_trapEnter (vec := vec) (clearI := clearI) hpush
  have htrap := trapEnter_trapped ht
  have hread_lr : t.mem.read t.sp = .ok s.lr := by rw [htrap.sp_eq]; exact htrap.read_lr
  obtain ⟨u, hu, hgpr, hstatus, hsp, hlr, hpc, hmem, -⟩ :=
    popLoadsAtSp .none .lr { t with pc := p } _ rfl nofun nofun hread_lr
  have hsp : u.sp = s.sp - 1#32 := by
    rw [hsp, if_neg nofun, htrap.sp_eq, ← sub_one_sub_one]
    exact BitVec.sub_add_cancel (s.sp - 1#32) 1#32
  have hread_pc : u.mem.read u.sp = .ok s.pc := by rw [hsp, hmem]; exact htrap.read_pc
  obtain ⟨v, hv, hgpr', hstatus', hsp', hlr', hpc', -⟩ :=
    popLoadsAtSp .none .pc { u with pc := q } _ rfl nofun nofun hread_pc
  refine ⟨t, u, v, ht, hu, hv, hlr, hpc', ?_, hlr', ?_, ?_⟩
  · rw [hsp', if_neg nofun, hsp]
    exact BitVec.sub_add_cancel s.sp 1#32
  · exact (gpr_ext hgpr').trans ((gpr_ext hgpr).trans htrap.gpr_eq)
  · exact hstatus'.trans (hstatus.trans htrap.status_eq)

/-- Settles O57: both writes of pc link. -/
theorem callAndReturnThroughLr : Obligations.CallAndReturnThroughLr := by
  intro f b s q
  obtain ⟨t, ht, hgpr, hstatus, hsp, hlr, hpc, hmem, -⟩ := ldiLoadsImmediate .none .pc f s rfl nofun
  obtain ⟨u, hu, hgpr', hstatus', hsp', hlr', hpc', hmem', -⟩ :=
    passMovesOpC .none ⟨false, false, false⟩ .pc b (.reg .lr) { t with pc := q } ⟨rfl, nofun, nofun⟩
  refine ⟨t, u, ht, hpc, hlr, hu, hpc'.trans hlr, hlr', hsp'.trans hsp, ?_, hstatus'.trans hstatus, hmem'.trans hmem⟩
  exact (gpr_ext hgpr').trans (gpr_ext hgpr)

end Sys2Proof
